-- ==== Sys2Proof/Word.lean ====
section
/-! DEFINITION. The words of the block, each at the width the spec gives it. All are unsigned
(`00_scope.md` section 5); bit 0 is the least significant bit (R53). -/

namespace Sys2Proof

/-- A 4-bit column drive pattern, row reading or column register value (R21, R71, R72). -/
abbrev Nibble := BitVec 4

/-- The 8-bit combined word: rows in bits 7 to 4, columns in bits 3 to 0 (R53, R70). -/
abbrev Combined := BitVec 8

/-- A key code, 0 to 15 (R73). -/
abbrev KeyCode := BitVec 4

/-- Format DR, the decode result: bit 4 is the miss flag, bits 3 to 0 the key code (R74). -/
abbrev DecodeResult := BitVec 5

/-- Format OW, the output word (R83). `OUT_W` is fixed at 5 (R9). -/
abbrev OutWord := BitVec 5

/-- An interrupt mask, one bit per channel (R84). The container has 8 bits, the width of `arg`;
bits from `MASK_W` up do not exist in the hardware and are kept 0 (log 11). -/
abbrev Mask := BitVec 8

/-- Format CMD, the command word: `op` in bits 10 to 8, `arg` in bits 7 to 0 (R78). -/
abbrev CmdWord := BitVec 11

/-- An address of the decoder ROM: row reading in bits 7 to 4, column pattern in bits 3 to 0 (R76). -/
abbrev RomAddr := BitVec 8

/-- A row line or a column line of the 4×4 matrix (R8). -/
abbrev Line := Fin 4

end Sys2Proof
end

