-- ==== Sys2Proof/Config.lean ====
section
/-! DEFINITION. The parameters of R9 as one configuration record, and the free values of the model. -/

namespace Sys2Proof

/-- When the interrupt controller may invoke the handler (R9, R181, D12). -/
inductive InvokePolicy where
  /-- Whenever the sequencer is idle. -/
  | free
  /-- Only when also `irq_o = 1`. -/
  | gated
  deriving DecidableEq, Repr

/-- How the row inputs are produced (R9, R183, R184, D15). -/
inductive RowsEnv where
  /-- Any 4-bit value at every sample. -/
  | free
  /-- The nominal matrix of R184. -/
  | keypad
  deriving DecidableEq, Repr

/-- The parameters of R9. DESIGN CHOICE (log 1): the record is carried in State and no step writes it,
so a statement about every state is a statement about every choice of the parameters. -/
structure Config where
  /-- `MASK_W`, the width of the masks, 1 to 8 (D7). -/
  maskW : Nat
  /-- `CH`, the keypad channel's bit, 0 to `MASK_W` - 1 (D7). -/
  ch : Nat
  /-- `NOKEY_OUT`, the value written to the sink when no key is found (D10). DESIGN CHOICE (log 24): any
  5-bit value, bit 4 one or zero. -/
  nokeyOut : OutWord
  /-- `INVOKE_POLICY` (D12). -/
  invokePolicy : InvokePolicy
  /-- `ROWS_ENV` (D15). -/
  rowsEnv : RowsEnv
  /-- `T_STEP`: read by no rule (D2). -/
  tStep : Nat
  /-- `T_SETTLE`: read by no rule (D27). -/
  tSettle : Nat
  deriving DecidableEq, Repr

/-- The defaults of R9. The spec gives no default for `T_STEP` and `T_SETTLE`, only that they are
positive: DESIGN CHOICE 1 for each (log 1); no rule reads them. -/
def Config.default : Config where
  maskW := 1
  ch := 0
  nokeyOut := 0x10#5
  invokePolicy := .free
  rowsEnv := .free
  tStep := 1
  tSettle := 1

/-- FREE VALUE (log 3): the `n`-th row sample the environment gives once the listed samples are used
up, under `ROWS_ENV = FREE` (R183: "any 4-bit value, chosen anew by the environment at every call"). -/
opaque Config.freeRow : Nat → Nibble

/-- FREE VALUE (log 4): what a read of the output latch gives before its first write
(R23, R193, U3: "any 5-bit value"). -/
opaque Config.freeOut : Nat → OutWord

/-- FREE VALUE (log 12): what `hrdata_o` shows when no read command has just returned data (R242). -/
opaque Config.freeRdata : Nat → BitVec 8

end Sys2Proof
end

