-- ==== Sys2Proof/Syntax.lean ====
section
/-! DEFINITION. The operation set: one constructor for each row of `spec/opcode_table.json`
(formats CMD, DR and HS of `30_encoding.md`), and the eight states of the sequencer. -/

namespace Sys2Proof

/-- The three formats of the opcode table (`30_encoding.md`, opening). -/
inductive Format where
  /-- Command words, 11 bits (R78). -/
  | cmd
  /-- Addresses of the decoder ROM, 8 bits (R76). -/
  | dr
  /-- Sequencer state codes, 3 bits (R82). -/
  | hs
  deriving DecidableEq, Repr

/-- The values of the sequencer state register `HS` (R26, R82). -/
inductive HState where
  /-- Idle: waits for INVOKE (R150). -/
  | sIdle
  /-- Protocol step 1, Disable (R151). -/
  | sDis
  /-- Protocol step 2, Confirm (R152). -/
  | sChk
  /-- Protocol step 3, sweep: write the column (R153). -/
  | sCol
  /-- Protocol step 3, sweep: read the rows, decode, decide (R154). -/
  | sRd
  /-- Protocol step 3, output (R155). -/
  | sOut
  /-- Protocol step 4, Clear (R156). -/
  | sClr
  /-- Protocol step 5, Enable (R157). -/
  | sEn
  deriving DecidableEq, Repr

/-- One constructor per row of the opcode table. Argument bits that an operation ignores (R80) are no
part of the instruction. A mask operand is the whole `arg`; the operation takes `arg[MASK_W-1:0]` of it. -/
inductive Instr where
  /-- WRCOL, write columns; the pattern is `arg[3:0]` (R100). -/
  | wrcol (pattern : Nibble)
  /-- RDCMB, read combined (R101). -/
  | rdcmb
  /-- WROUT, write output; the value is `arg[4:0]` (R102). -/
  | wrout (value : OutWord)
  /-- ISTAT, interrupt status (R103). -/
  | istat
  /-- IDIS, interrupt disable (R104). -/
  | idis (arg : Mask)
  /-- ICLR, interrupt clear (R105). -/
  | iclr (arg : Mask)
  /-- IEN, interrupt enable (R106). -/
  | ien (arg : Mask)
  /-- Operation code 7, reserved (R81, R107). -/
  | reservedOp7
  /-- KEYDEC.K0: the ROM address of key code 0 (R75). -/
  | keydecK0
  /-- KEYDEC.K1: the ROM address of key code 1 (R75). -/
  | keydecK1
  /-- KEYDEC.K2: the ROM address of key code 2 (R75). -/
  | keydecK2
  /-- KEYDEC.K3: the ROM address of key code 3 (R75). -/
  | keydecK3
  /-- KEYDEC.K4: the ROM address of key code 4 (R75). -/
  | keydecK4
  /-- KEYDEC.K5: the ROM address of key code 5 (R75). -/
  | keydecK5
  /-- KEYDEC.K6: the ROM address of key code 6 (R75). -/
  | keydecK6
  /-- KEYDEC.K7: the ROM address of key code 7 (R75). -/
  | keydecK7
  /-- KEYDEC.K8: the ROM address of key code 8 (R75). -/
  | keydecK8
  /-- KEYDEC.K9: the ROM address of key code 9 (R75). -/
  | keydecK9
  /-- KEYDEC.K10: the ROM address of key code 10 (R75). -/
  | keydecK10
  /-- KEYDEC.K11: the ROM address of key code 11 (R75). -/
  | keydecK11
  /-- KEYDEC.K12: the ROM address of key code 12 (R75). -/
  | keydecK12
  /-- KEYDEC.K13: the ROM address of key code 13 (R75). -/
  | keydecK13
  /-- KEYDEC.K14: the ROM address of key code 14 (R75). -/
  | keydecK14
  /-- KEYDEC.K15: the ROM address of key code 15 (R75). -/
  | keydecK15
  /-- KEYDEC.MISS: any other ROM address, as its row reading and column pattern (R77). -/
  | keydecMiss (rows cols : Nibble)
  /-- The step of S_IDLE (R150). -/
  | sIdle
  /-- The step of S_DIS (R151). -/
  | sDis
  /-- The step of S_CHK (R152). -/
  | sChk
  /-- The step of S_COL (R153). -/
  | sCol
  /-- The step of S_RD (R154). -/
  | sRd
  /-- The step of S_OUT (R155). -/
  | sOut
  /-- The step of S_CLR (R156). -/
  | sClr
  /-- The step of S_EN (R157). -/
  | sEn
  deriving DecidableEq, Repr

end Sys2Proof
end

