-- ==== Sys2Proof/WellFormed.lean ====
section
/-! DEFINITION. The checks on configurations and instructions. -/

namespace Sys2Proof

/-- The ranges R9 gives the parameters: `MASK_W` 1 to 8, `CH` below `MASK_W`, times positive. Nothing is
asked of `NOKEY_OUT`: whether its bit 4 must be one (R83, D9) is left open, and every 5-bit value is
accepted, a key code's word among them: DESIGN CHOICE (log 24). -/
def Config.wf (c : Config) : Bool :=
  decide (1 ≤ c.maskW) && decide (c.maskW ≤ 8) && decide (c.ch < c.maskW)
    && decide (1 ≤ c.tStep) && decide (1 ≤ c.tSettle)

/-- Exactly one bit is low: the form of a column drive pattern (R71) and of a row reading that names
one row (R72). -/
def oneLow (v : Nibble) : Bool :=
  v == 0b1110#4 || v == 0b1101#4 || v == 0b1011#4 || v == 0b0111#4

/-- An instruction is well formed when it is the reading of some word of its row: KEYDEC.MISS stands
only for the 240 addresses that the sixteen hit rows leave (R77). -/
def Instr.wf : Instr → Bool
  | .keydecMiss rows cols => !(oneLow rows && oneLow cols)
  | _ => true

/-- The form in which the sequencer writes an instruction: zeros in every ignored bit (R80), so a mask
argument has no bit from `MASK_W` up. -/
def Instr.canonicalFor (c : Config) : Instr → Bool
  | .idis a => decide (a.toNat < 2 ^ c.maskW)
  | .iclr a => decide (a.toNat < 2 ^ c.maskW)
  | .ien a => decide (a.toNat < 2 ^ c.maskW)
  | i => i.wf

end Sys2Proof
end

