-- ==== Sys2Proof/Decode.lean ====
section
/-! DEFINITION. Decoding and encoding, from the tables of `30_encoding.md` (R75 to R82).
Each format has a decoder that is total on the words of its width; a word wider than the format is
refused by name. -/

namespace Sys2Proof

/-- Why a word is no word of a format. -/
inductive DecodeError where
  /-- The word has a bit at or above the format's width (R76, R78, R82 give the widths). -/
  | tooWide (f : Format)
  deriving DecidableEq, Repr

/-- The state codes (R82). -/
def HState.code : HState → BitVec 3
  | .sIdle => 0#3
  | .sDis => 1#3
  | .sChk => 2#3
  | .sCol => 3#3
  | .sRd => 4#3
  | .sOut => 5#3
  | .sClr => 6#3
  | .sEn => 7#3

/-- The state a code names: all eight codes are states (R26). -/
def HState.ofCode (c : BitVec 3) : HState :=
  match c.toNat with
  | 0 => .sIdle
  | 1 => .sDis
  | 2 => .sChk
  | 3 => .sCol
  | 4 => .sRd
  | 5 => .sOut
  | 6 => .sClr
  | _ => .sEn

/-- Bits 10 to 8 of a command word (R78). -/
def CmdWord.op (w : CmdWord) : BitVec 3 := w.extractLsb' 8 3

/-- Bits 7 to 0 of a command word (R78). -/
def CmdWord.arg (w : CmdWord) : BitVec 8 := w.extractLsb' 0 8

/-- A command word from its two fields (R78). -/
def CmdWord.mk (op : BitVec 3) (arg : BitVec 8) : CmdWord := op ++ arg

/-- The command words (R79): "decoded by its top three bits alone" (R81), operands as R80 assembles
them, ignored bits accepted at any value. -/
def decodeCmd (w : CmdWord) : Instr :=
  match (CmdWord.op w).toNat with
  | 0 => .wrcol ((CmdWord.arg w).extractLsb' 0 4)
  | 1 => .rdcmb
  | 2 => .wrout ((CmdWord.arg w).extractLsb' 0 5)
  | 3 => .istat
  | 4 => .idis (CmdWord.arg w)
  | 5 => .iclr (CmdWord.arg w)
  | 6 => .ien (CmdWord.arg w)
  | _ => .reservedOp7

/-- The ROM addresses: the sixteen rows of R75, and every other address the default row (R77). -/
def decodeRom (a : RomAddr) : Instr :=
  if a = 0xE7#8 then .keydecK0
  else if a = 0x77#8 then .keydecK1
  else if a = 0x7B#8 then .keydecK2
  else if a = 0x7D#8 then .keydecK3
  else if a = 0xB7#8 then .keydecK4
  else if a = 0xBB#8 then .keydecK5
  else if a = 0xBD#8 then .keydecK6
  else if a = 0xD7#8 then .keydecK7
  else if a = 0xDB#8 then .keydecK8
  else if a = 0xDD#8 then .keydecK9
  else if a = 0x7E#8 then .keydecK10
  else if a = 0xBE#8 then .keydecK11
  else if a = 0xDE#8 then .keydecK12
  else if a = 0xEE#8 then .keydecK13
  else if a = 0xED#8 then .keydecK14
  else if a = 0xEB#8 then .keydecK15
  else .keydecMiss (a.extractLsb' 4 4) (a.extractLsb' 0 4)

/-- The instruction a state stands for: the step of that state (R150 to R157). -/
def stateInstr : HState → Instr
  | .sIdle => .sIdle
  | .sDis => .sDis
  | .sChk => .sChk
  | .sCol => .sCol
  | .sRd => .sRd
  | .sOut => .sOut
  | .sClr => .sClr
  | .sEn => .sEn

/-- The state codes as instructions (R82). -/
def decodeState (c : BitVec 3) : Instr := stateInstr (HState.ofCode c)

/-- The width of a format in bits (R76, R78, R82). -/
def formatWidth : Format → Nat
  | .cmd => 11
  | .dr => 8
  | .hs => 3

/-- Decode a word of a format, total on every number. -/
def decode (f : Format) (w : Nat) : Except DecodeError Instr :=
  match f with
  | .cmd => if w < 2 ^ 11 then .ok (decodeCmd (BitVec.ofNat 11 w)) else .error (.tooWide .cmd)
  | .dr => if w < 2 ^ 8 then .ok (decodeRom (BitVec.ofNat 8 w)) else .error (.tooWide .dr)
  | .hs => if w < 2 ^ 3 then .ok (decodeState (BitVec.ofNat 3 w)) else .error (.tooWide .hs)

/-- The word of a well-formed instruction, with zeros in the ignored bits (R80): its format and its
bits (R75, R76, R79, R82). -/
def encode : Instr → Format × Nat
  | .wrcol p => (.cmd, (CmdWord.mk 0#3 (p.setWidth 8)).toNat)
  | .rdcmb => (.cmd, (CmdWord.mk 1#3 0#8).toNat)
  | .wrout v => (.cmd, (CmdWord.mk 2#3 (v.setWidth 8)).toNat)
  | .istat => (.cmd, (CmdWord.mk 3#3 0#8).toNat)
  | .idis a => (.cmd, (CmdWord.mk 4#3 a).toNat)
  | .iclr a => (.cmd, (CmdWord.mk 5#3 a).toNat)
  | .ien a => (.cmd, (CmdWord.mk 6#3 a).toNat)
  | .reservedOp7 => (.cmd, (CmdWord.mk 7#3 0#8).toNat)
  | .keydecK0 => (.dr, 0xE7)
  | .keydecK1 => (.dr, 0x77)
  | .keydecK2 => (.dr, 0x7B)
  | .keydecK3 => (.dr, 0x7D)
  | .keydecK4 => (.dr, 0xB7)
  | .keydecK5 => (.dr, 0xBB)
  | .keydecK6 => (.dr, 0xBD)
  | .keydecK7 => (.dr, 0xD7)
  | .keydecK8 => (.dr, 0xDB)
  | .keydecK9 => (.dr, 0xDD)
  | .keydecK10 => (.dr, 0x7E)
  | .keydecK11 => (.dr, 0xBE)
  | .keydecK12 => (.dr, 0xDE)
  | .keydecK13 => (.dr, 0xEE)
  | .keydecK14 => (.dr, 0xED)
  | .keydecK15 => (.dr, 0xEB)
  | .keydecMiss rows cols => (.dr, (rows ++ cols).toNat)
  | .sIdle => (.hs, 0)
  | .sDis => (.hs, 1)
  | .sChk => (.hs, 2)
  | .sCol => (.hs, 3)
  | .sRd => (.hs, 4)
  | .sOut => (.hs, 5)
  | .sClr => (.hs, 6)
  | .sEn => (.hs, 7)

/-- The bits of a row's word that the instruction is read from; a decoder accepts any value in the
others (R80). -/
def usedBits : Instr → Nat
  | .wrcol _ => 0x70F
  | .rdcmb => 0x700
  | .wrout _ => 0x71F
  | .istat => 0x700
  | .idis _ => 0x7FF
  | .iclr _ => 0x7FF
  | .ien _ => 0x7FF
  | .reservedOp7 => 0x700
  | .sIdle => 0x7
  | .sDis => 0x7
  | .sChk => 0x7
  | .sCol => 0x7
  | .sRd => 0x7
  | .sOut => 0x7
  | .sClr => 0x7
  | .sEn => 0x7
  | _ => 0xFF

/-- The format in which a table word of `nbits` bits is read. Words of more than 8 bits are command
words. The rows of formats DR (8 bits) and HS (3 bits) both fill one byte; DESIGN CHOICE (log 7): a
byte below 8 is read as a state code, any other as a ROM address. -/
def tableFormat (nbits w : Nat) : Format :=
  if nbits ≤ 8 then (if w < 8 then .hs else .dr) else .cmd

/-- The instruction the decoder reads from a word numbered as `spec/opcode_table.json` numbers it.
No format has more than one word, so there is nothing to lay out: the word's bits are the pins'. -/
def decodeTableWord (nbits w : Nat) : Option Instr :=
  if nbits = 0 ∨ 16 < nbits then none
  else match decode (tableFormat nbits w) w with
    | .ok i => some i
    | .error _ => none

end Sys2Proof
end

