-- ==== Sys2Proof/Machine/State.lean ====
section
/-! DEFINITION. The state of the machine: the registers of R20, the pins of R40 that last one step, the
environment of R183, R184 and R198, the trace of R35, the reset values of R36. -/

namespace Sys2Proof.Machine

/-- Who issued an operation (R109). -/
inductive Issuer where
  | sequencer
  | host
  deriving DecidableEq, Repr

/-- A performed primitive operation with its argument or result (R100 to R106, R109). -/
inductive OpEvent where
  | wrcol (p : Nibble)
  | rdcmb (v : Combined)
  | wrout (w : OutWord)
  | istat (m : Mask)
  | idis (m : Mask)
  | iclr (m : Mask)
  | ien (m : Mask)
  deriving DecidableEq, Repr

/-- The two exits of the handler, told apart in the trace only (R165, R211). -/
inductive ReturnKind where
  | normal
  | early
  deriving DecidableEq, Repr

/-- The events of the trace (R35, R85, R109; the environment's are R180, R181, R182, R185, R193, R240). -/
inductive Event where
  | reset
  | op (who : Issuer) (o : OpEvent)
  | hRdout (v : OutWord)
  | edge (m : Mask)
  | invoke
  | ret (k : ReturnKind)
  | keyDown (r c : Line)
  | keyUp (r c : Line)
  deriving DecidableEq, Repr

/-- One act of one agent (R6, R198). -/
inductive Input where
  /-- The sequencer takes a step (R159). -/
  | seq
  /-- The host presents a command word on `hcmd_i` (R108, R186 to R192). -/
  | hcmd (w : CmdWord)
  /-- DESIGN CHOICE (log 5): the decoder ROM is presented an address by itself (R76, R125). -/
  | rom (a : RomAddr)
  /-- A pulse on the pins `edge_i` (R180). -/
  | edge (m : Mask)
  /-- A pulse on the pin `invoke_i` (R181). -/
  | invoke
  /-- A key is pressed (R185). -/
  | keyDown (r c : Line)
  /-- A key is released (R185). -/
  | keyUp (r c : Line)
  /-- The host samples the pins `out_o` (R193). -/
  | hRdout
  /-- The pin `rst` is sampled at this level (R240, R241). -/
  | rst (high : Bool)
  deriving DecidableEq, Repr

/-- The reasons a step can stop with a fault: none. The block raises no exception of any kind (R200), so
nobody raises one, which is neither safe nor unsafe. -/
inductive Fault where
  deriving DecidableEq, Repr

/-- The reasons the model has no transition. -/
inductive Refusal where
  /-- Raised by `exec` for an instruction without a meaning; no arm raises it. Safe. -/
  | notModelled (mnemonic : String)
  /-- Raised by the meaning of operation code 7: "the step relation has no transition for it" (R107).
  Safe: the hardware changes nothing and goes on. -/
  | reservedOp
  /-- Raised by the fetch for a host command presented while `HS` is not S_IDLE (R195, U6). Safe: a
  realisation may ignore, hold or perform it. -/
  | hostWhileBusy
  /-- Raised by the fetch for an INVOKE that `INVOKE_POLICY = GATED` does not enable (R181). Safe: no run
  holds it. -/
  | invokeNotEnabled
  /-- Raised by the fetch for a key event when `ROWS_ENV` is not `KEYPAD` (R185). Safe: no run holds it. -/
  | keyEventWithoutKeypad
  deriving DecidableEq, Repr

/-- The state. The first group is the whole state of the block (R20); `trace` is R35's bookkeeping; the
pins are those of R40 that last one step; the environment is R183, R184 and R198; `cfg`, `inputs`,
`romOut` and `free` are the model's own. -/
structure State where
  /-- `COL`, the column output register (R21). -/
  col : Nibble
  /-- `OUT`, the output latch; without meaning while `outv` is false (R23). Read it by `outRead` only. -/
  out : OutWord
  /-- `OUTV` (R23). -/
  outv : Bool
  /-- `IER`, interrupt enable (R24). -/
  ier : Mask
  /-- `ISR`, interrupt status (R25). -/
  isr : Mask
  /-- `HS`, the sequencer state (R26). -/
  hs : HState
  /-- `K`, the column step index (R27). -/
  k : BitVec 2
  /-- `P`, the engine's column drive pattern (R28). -/
  p : Nibble
  /-- `RES`, the decode result (R29). -/
  res : DecodeResult
  /-- The trace, oldest event first (R35). -/
  trace : List Event
  /-- The pin `rst` as last sampled (R241). -/
  rst : Bool
  /-- A pulse on the pin `invoke_i` in the step being taken (R40, R150). -/
  invokeI : Bool
  /-- The last step pulsed `out_we_o` (R40, R102). -/
  outWe : Bool
  /-- The last step pulsed `ret_o` (R40, R182). -/
  ret : Bool
  /-- The data the last step returned on `hrdata_o`, if it was a read command of the host (R108). -/
  hrdata : Option (BitVec 8)
  /-- The keys held down, `H` of R184, at index `4 r + c`. -/
  held : Vector Bool 16
  /-- The row samples still to come under `ROWS_ENV = FREE`, one used per read (R183). -/
  rows : List Nibble
  /-- The parameters (R9), written by no step (log 1). -/
  cfg : Config
  /-- The agents' acts still to come, in order (R198); when none is listed the sequencer steps (log 2). -/
  inputs : List Input
  /-- The decoder ROM's data word at its last read (log 5). -/
  romOut : DecodeResult
  /-- Counts the free values used (log 3). -/
  free : Nat
  deriving DecidableEq, Repr

/-- The state after reset (R36, R242) with the default parameters (R9). `out` is hidden by `outv` (log 4);
the environment's and the model's own fields are DESIGN CHOICEs (log 5, log 12, log 13, log 19). -/
def State.reset : State where
  col := 0b1111#4
  out := 0#5
  outv := false
  ier := 0#8
  isr := 0#8
  hs := .sIdle
  k := 0#2
  p := 0b1110#4
  res := 0x10#5
  trace := [.reset]
  rst := false
  invokeI := false
  outWe := false
  ret := false
  hrdata := none
  held := Vector.replicate 16 false
  rows := []
  cfg := Config.default
  inputs := []
  romOut := 0x10#5
  free := 0

end Sys2Proof.Machine
end

