-- ==== Sys2Proof/Machine/Operands.lean ====
section
/-! DEFINITION. How operands are assembled: masks (R84, R80), the rotation (R121), the row multiplexer
(R124), the row pins (R183, R184), the output word (R83, R155), the matrix layout (R87). -/

namespace Sys2Proof.Machine

/-- The bits a mask has: `MASK_W` ones (R84). -/
def maskBits (c : Config) : Mask := BitVec.allOnes 8 >>> (8 - c.maskW)

/-- `CH_MASK = 1 << CH` (R9, R84). -/
def chMask (c : Config) : Mask := 1#8 <<< c.ch

/-- The mask operand `arg[MASK_W-1:0]`: "higher bits of `arg` are ignored" (R80). -/
def maskArg (c : Config) (arg : Mask) : Mask := arg &&& maskBits c

/-- `rotl4`, the circular left rotation of a 4-bit value by one (R121). -/
def rotl4 (v : Nibble) : Nibble := (v <<< 1) ||| (v >>> 3)

/-- `rotl4` applied `n` times. -/
def rotl4Iter : Nat → Nibble → Nibble
  | 0, v => v
  | n + 1, v => rotl4 (rotl4Iter n v)

/-- ROWSEL: the row nibble `v[7:4]` of the combined word (R124). -/
def rowSel (v : Combined) : Nibble := v.extractLsb' 4 4

/-- The decoder's address: row reading above column pattern (R76). -/
def romAddr (rows cols : Nibble) : RomAddr := rows ++ cols

/-- Where the key at row line `r` and column line `c` stands in `held`. -/
def keyIndex (r c : Line) : Fin 16 := ⟨4 * r.val + c.val, by omega⟩

/-- Whether the key at `(r, c)` is in `H` (R184). -/
def keyHeld (held : Vector Bool 16) (r c : Line) : Bool := held[keyIndex r c]

/-- `H ∪ {(r, c)}` or `H \ {(r, c)}` (R185). -/
def setKey (held : Vector Bool 16) (r c : Line) (b : Bool) : Vector Bool 16 :=
  held.set (keyIndex r c) b

/-- Row line `r` is pulled low: some held key of that row is in a column driven low (R184). -/
def rowLow (held : Vector Bool 16) (col : Nibble) (r : Line) : Bool :=
  (keyHeld held r 0 && !col.getLsbD 0) || (keyHeld held r 1 && !col.getLsbD 1)
    || (keyHeld held r 2 && !col.getLsbD 2) || (keyHeld held r 3 && !col.getLsbD 3)

/-- The row pins of the nominal keypad: bit `r` is 0 exactly when row line `r` is pulled low (R184). -/
def keypadRows (held : Vector Bool 16) (col : Nibble) : Nibble :=
  BitVec.ofBool (!rowLow held col 3) ++ BitVec.ofBool (!rowLow held col 2)
    ++ BitVec.ofBool (!rowLow held col 1) ++ BitVec.ofBool (!rowLow held col 0)

/-- `RowSample()`, the row pins at the instant of the step (R183, R184). -/
def rowSample (s : State) : Nibble :=
  match s.cfg.rowsEnv with
  | .keypad => keypadRows s.held s.col
  | .free =>
    match s.rows with
    | r :: _ => r
    | [] => Config.freeRow s.free

/-- The state after a row sample: the oracle gives one element per read (R183); a free value is used
once. -/
def consumeRow (s : State) : State :=
  match s.cfg.rowsEnv with
  | .keypad => s
  | .free =>
    match s.rows with
    | _ :: rs => { s with rows := rs }
    | [] => { s with free := s.free + 1 }

/-- The combined word `RowSample() ++ COL` (R101, R60, R70). -/
def combinedWord (s : State) : Combined := rowSample s ++ s.col

/-- The output word: the code when a key was found, else `NOKEY_OUT` (R83, R155). Any value with the
miss flag set counts as "no key" (U10). -/
def outWord (c : Config) (d : DecodeResult) : OutWord :=
  if d.getLsbD 4 then c.nokeyOut else d

/-- What a read of the output latch gives: its value once written, a free value before
(R23, R193, U3). -/
def outRead (s : State) : OutWord := if s.outv then s.out else Config.freeOut s.free

/-- The pattern that drives column line `c` alone low (R71). -/
def colPattern (c : Line) : Nibble :=
  match c with
  | 0 => 0b1110#4
  | 1 => 0b1101#4
  | 2 => 0b1011#4
  | 3 => 0b0111#4

/-- The key code at row line `r`, column line `c` of the matrix (R87). -/
def keyAt (r c : Line) : KeyCode :=
  match r, c with
  | 3, 0 => 10#4 | 3, 1 => 3#4  | 3, 2 => 2#4  | 3, 3 => 1#4
  | 2, 0 => 11#4 | 2, 1 => 6#4  | 2, 2 => 5#4  | 2, 3 => 4#4
  | 1, 0 => 12#4 | 1, 1 => 9#4  | 1, 2 => 8#4  | 1, 3 => 7#4
  | 0, 0 => 13#4 | 0, 1 => 14#4 | 0, 2 => 15#4 | 0, 3 => 0#4

end Sys2Proof.Machine
end

