-- ==== Sys2Proof/Machine/Flags.lean ====
section
/-! DEFINITION. The flags (R34), the derived predicates (R33), the interrupt request and the output pins
(R40). None has storage. -/

namespace Sys2Proof.Machine

/-- The hit flag of a decode result: `NOT d[4]` (R34, R125). -/
def hitFlag (d : DecodeResult) : Bool := !d.getLsbD 4

/-- The confirmation flag: `(t AND CH_MASK) ≠ 0` (R34, R152). -/
def confirmFlag (c : Config) (t : Mask) : Bool := (t &&& chMask c) != 0#8

/-- `IE = IER[CH]` (R24). -/
def State.ie (s : State) : Bool := s.ier.getLsbD s.cfg.ch

/-- `IS = ISR[CH]` (R25). -/
def State.is (s : State) : Bool := s.isr.getLsbD s.cfg.ch

/-- `irq_o = IE AND IS` (R40, R204). -/
def State.irq (s : State) : Bool := s.ie && s.is

/-- `Idle` (R33). -/
def State.idle (s : State) : Bool := s.hs == .sIdle

/-- `InHandler`, the pin `busy_o` (R33, R40). -/
def State.busy (s : State) : Bool := !s.idle

/-- `Armed`: the source's Idle/Armed (R33). -/
def State.armed (s : State) : Bool := s.idle && s.ie

/-- `Dead`: the source's Idle/Armed-but-Disabled (R33, R160). -/
def State.dead (s : State) : Bool := s.idle && !s.ie

/-- `Handling`, protocol steps 1 and 2 (R26). -/
def State.handling (s : State) : Bool := s.hs == .sDis || s.hs == .sChk

/-- `Servicing`, protocol step 3 (R26). -/
def State.servicing (s : State) : Bool := s.hs == .sCol || s.hs == .sRd || s.hs == .sOut

/-- `Acknowledging`, protocol steps 4 and 5 (R26). -/
def State.acknowledging (s : State) : Bool := s.hs == .sClr || s.hs == .sEn

/-- The pin `col_o`, equal to `COL` at all times (R40). -/
def State.colO (s : State) : Nibble := s.col

/-- The pin `out_o`, equal to `OUT`; unspecified before the first write (R40). -/
def State.outO (s : State) : OutWord := outRead s

/-- The pin `hrdata_o`: the data of the host's read command; unspecified otherwise (R40, R242). -/
def State.hrdataO (s : State) : BitVec 8 :=
  match s.hrdata with
  | some v => v
  | none => Config.freeRdata s.free

/-- When the controller may invoke: the sequencer is idle and, under `GATED`, the request is up (R181). -/
def State.invokeEnabled (s : State) : Bool :=
  s.idle && (match s.cfg.invokePolicy with
    | .free => true
    | .gated => s.irq)

/-- Who owns the command port: the sequencer while it runs, else the host (R108, R215). -/
def State.issuer (s : State) : Issuer := if s.idle then .host else .sequencer

end Sys2Proof.Machine
end

