-- ==== Sys2Proof/Machine/Rom.lean ====
section
/-! DEFINITION. The decoder ROM: 256 words of format DR (R75, R76, R77). -/

namespace Sys2Proof.Machine

/-- The lookup table by (column pattern, row reading), in the layout of the source's table (R75); `none`
for every other pair. -/
def lookupTable (cols rows : Nibble) : Option KeyCode :=
  match cols.toNat, rows.toNat with
  | 0b1110, 0b1110 => some 13#4 | 0b1110, 0b1101 => some 12#4
  | 0b1110, 0b1011 => some 11#4 | 0b1110, 0b0111 => some 10#4
  | 0b1101, 0b1110 => some 14#4 | 0b1101, 0b1101 => some 9#4
  | 0b1101, 0b1011 => some 6#4  | 0b1101, 0b0111 => some 3#4
  | 0b1011, 0b1110 => some 15#4 | 0b1011, 0b1101 => some 8#4
  | 0b1011, 0b1011 => some 5#4  | 0b1011, 0b0111 => some 2#4
  | 0b0111, 0b1110 => some 0#4  | 0b0111, 0b1101 => some 7#4
  | 0b0111, 0b1011 => some 4#4  | 0b0111, 0b0111 => some 1#4
  | _, _ => none

/-- `RomRead(a)`: the key code, zero-extended to 5 bits, at the sixteen addresses of the table, and
`0x10` at each of the other 240 (R76). -/
def romRead (a : RomAddr) : DecodeResult :=
  match lookupTable (a.extractLsb' 0 4) (a.extractLsb' 4 4) with
  | some code => code.setWidth 5
  | none => 0x10#5

end Sys2Proof.Machine
end

