-- ==== Sys2Proof/Machine/Ops.lean ====
section
/-! DEFINITION. The shared operations: the seven primitive peripheral operations (R100 to R106), the
engine's internal operations (R121, R122, R125), taking the interrupt (INVOKE) and returning from it. -/

namespace Sys2Proof.Machine

/-- `Emit(e)`: append an event to the trace (R35). -/
def State.emit (e : Event) (s : State) : State := { s with trace := s.trace ++ [e] }

/-- `HS <- h` (R26). -/
def State.goto (h : HState) (s : State) : State := { s with hs := h }

/-- The pins that pulse for one step return to rest before the next one (R40). -/
def State.settlePins (s : State) : State :=
  { s with outWe := false, ret := false, hrdata := none, invokeI := false }

/-- Read data goes to the requester: the host's appears on `hrdata_o`, the sequencer's stays inside (R108). -/
def State.returnData (who : Issuer) (v : BitVec 8) (s : State) : State :=
  match who with
  | .host => { s with hrdata := some v }
  | .sequencer => s

/-- WRCOL (R100): `COL <- p; Emit(WRCOL(p))`. -/
def opWrcol (who : Issuer) (p : Nibble) (s : State) : State :=
  { s with col := p }.emit (.op who (.wrcol p))

/-- RDCMB (R101): `v = RowSample() ++ COL; Emit(RDCMB() -> v)`; `v` is `combinedWord s`. -/
def opRdcmb (who : Issuer) (s : State) : State :=
  ((consumeRow s).returnData who (combinedWord s)).emit (.op who (.rdcmb (combinedWord s)))

/-- WROUT (R102): `OUT <- w; OUTV <- 1; Emit(WROUT(w))`, one pulse on `out_we_o`. -/
def opWrout (who : Issuer) (w : OutWord) (s : State) : State :=
  { s with out := w, outv := true, outWe := true }.emit (.op who (.wrout w))

/-- ISTAT (R103): `m = ISR; Emit(ISTAT() -> m)`; `m` is `s.isr`, whole and not masked by `IER`. -/
def opIstat (who : Issuer) (s : State) : State :=
  (s.returnData who s.isr).emit (.op who (.istat s.isr))

/-- IDIS (R104): `IER <- IER AND NOT m; Emit(IDIS(m))`. -/
def opIdis (who : Issuer) (m : Mask) (s : State) : State :=
  { s with ier := s.ier &&& ~~~m }.emit (.op who (.idis m))

/-- ICLR (R105): `ISR <- ISR AND NOT m; Emit(ICLR(m))`. -/
def opIclr (who : Issuer) (m : Mask) (s : State) : State :=
  { s with isr := s.isr &&& ~~~m }.emit (.op who (.iclr m))

/-- IEN (R106): `IER <- IER OR m; Emit(IEN(m))`. -/
def opIen (who : Issuer) (m : Mask) (s : State) : State :=
  { s with ier := s.ier ||| m }.emit (.op who (.ien m))

/-- KEYDEC (R125): `d = RomRead(a)`. It writes no register; the data word stands on the ROM's output
(log 5). -/
def opKeydec (a : RomAddr) (s : State) : State := { s with romOut := romRead a }

/-- COLINIT (R122): `P <- 0b1110; K <- 0; RES <- 0x10`. -/
def opColInit (s : State) : State := { s with p := 0b1110#4, k := 0#2, res := 0x10#5 }

/-- The advance to the next column: `K <- K + 1; P <- rotl4(P)` (R129; COLROT is R121). -/
def opNextCol (s : State) : State := { s with k := s.k + 1#2, p := rotl4 s.p }

/-- The read half of SCANSTEP (R127): `v = RDCMB(); rb = v[7:4]; RES <- KEYDEC(P, rb)`. -/
def opScanRead (s : State) : State :=
  let d := romAddr (rowSel (combinedWord s)) s.p
  { opKeydec d (opRdcmb .sequencer s) with res := romRead d }

/-- Taking the interrupt, the event INVOKE: `Emit(INVOKE); HS <- S_DIS`. Nothing is saved, masked or
vectored (R150, R210). -/
def takeInvoke (s : State) : State := (s.goto .sDis).emit .invoke

/-- Returning from it: `Emit(RETURN(k)); HS <- S_IDLE`, one pulse on `ret_o`. Nothing is restored
(R182, R211). -/
def returnFromHandler (k : ReturnKind) (s : State) : State :=
  ({ s with ret := true }.goto .sIdle).emit (.ret k)

end Sys2Proof.Machine
end

