-- ==== Sys2Proof/Machine/Keydec.lean ====
section
/-! DEFINITION. The rows of format DR: the decoder ROM read at one address (R125). "The operation is purely
combinational: it reads no register and writes none"; the data word stands on the ROM's output (log 5).
The row reading is the high nibble of the address, the column pattern the low one (R76). -/

namespace Sys2Proof.Machine

/-- KEYDEC.K0: row reading `1110`, column pattern `0111` (R75). -/
def execKeydecK0 (s : State) : Host.Outcome State Fault Refusal :=
  .next (opKeydec (romAddr 0b1110#4 0b0111#4) s)

/-- KEYDEC.K1: row reading `0111`, column pattern `0111` (R75). -/
def execKeydecK1 (s : State) : Host.Outcome State Fault Refusal :=
  .next (opKeydec (romAddr 0b0111#4 0b0111#4) s)

/-- KEYDEC.K2: row reading `0111`, column pattern `1011` (R75). -/
def execKeydecK2 (s : State) : Host.Outcome State Fault Refusal :=
  .next (opKeydec (romAddr 0b0111#4 0b1011#4) s)

/-- KEYDEC.K3: row reading `0111`, column pattern `1101` (R75). -/
def execKeydecK3 (s : State) : Host.Outcome State Fault Refusal :=
  .next (opKeydec (romAddr 0b0111#4 0b1101#4) s)

/-- KEYDEC.K4: row reading `1011`, column pattern `0111` (R75). -/
def execKeydecK4 (s : State) : Host.Outcome State Fault Refusal :=
  .next (opKeydec (romAddr 0b1011#4 0b0111#4) s)

/-- KEYDEC.K5: row reading `1011`, column pattern `1011` (R75). -/
def execKeydecK5 (s : State) : Host.Outcome State Fault Refusal :=
  .next (opKeydec (romAddr 0b1011#4 0b1011#4) s)

/-- KEYDEC.K6: row reading `1011`, column pattern `1101` (R75). -/
def execKeydecK6 (s : State) : Host.Outcome State Fault Refusal :=
  .next (opKeydec (romAddr 0b1011#4 0b1101#4) s)

/-- KEYDEC.K7: row reading `1101`, column pattern `0111` (R75). -/
def execKeydecK7 (s : State) : Host.Outcome State Fault Refusal :=
  .next (opKeydec (romAddr 0b1101#4 0b0111#4) s)

/-- KEYDEC.K8: row reading `1101`, column pattern `1011` (R75). -/
def execKeydecK8 (s : State) : Host.Outcome State Fault Refusal :=
  .next (opKeydec (romAddr 0b1101#4 0b1011#4) s)

/-- KEYDEC.K9: row reading `1101`, column pattern `1101` (R75). -/
def execKeydecK9 (s : State) : Host.Outcome State Fault Refusal :=
  .next (opKeydec (romAddr 0b1101#4 0b1101#4) s)

/-- KEYDEC.K10: row reading `0111`, column pattern `1110` (R75). -/
def execKeydecK10 (s : State) : Host.Outcome State Fault Refusal :=
  .next (opKeydec (romAddr 0b0111#4 0b1110#4) s)

/-- KEYDEC.K11: row reading `1011`, column pattern `1110` (R75). -/
def execKeydecK11 (s : State) : Host.Outcome State Fault Refusal :=
  .next (opKeydec (romAddr 0b1011#4 0b1110#4) s)

/-- KEYDEC.K12: row reading `1101`, column pattern `1110` (R75). -/
def execKeydecK12 (s : State) : Host.Outcome State Fault Refusal :=
  .next (opKeydec (romAddr 0b1101#4 0b1110#4) s)

/-- KEYDEC.K13: row reading `1110`, column pattern `1110` (R75). -/
def execKeydecK13 (s : State) : Host.Outcome State Fault Refusal :=
  .next (opKeydec (romAddr 0b1110#4 0b1110#4) s)

/-- KEYDEC.K14: row reading `1110`, column pattern `1101` (R75). -/
def execKeydecK14 (s : State) : Host.Outcome State Fault Refusal :=
  .next (opKeydec (romAddr 0b1110#4 0b1101#4) s)

/-- KEYDEC.K15: row reading `1110`, column pattern `1011` (R75). -/
def execKeydecK15 (s : State) : Host.Outcome State Fault Refusal :=
  .next (opKeydec (romAddr 0b1110#4 0b1011#4) s)

/-- KEYDEC.MISS: any address the sixteen hit rows leave (R77). -/
def execKeydecMiss (rows cols : Nibble) (s : State) : Host.Outcome State Fault Refusal :=
  .next (opKeydec (romAddr rows cols) s)

end Sys2Proof.Machine
end

