-- ==== Sys2Proof/Machine/Peripheral.lean ====
section
/-! DEFINITION. The rows of format CMD. The GPIO state machine performs the word of whoever owns the port
(R108): the host while `HS` is S_IDLE, else the sequencer (log 14). Each has a step in every state (R110). -/

namespace Sys2Proof.Machine

/-- WRCOL (R100). -/
def execWrcol (p : Nibble) (s : State) : Host.Outcome State Fault Refusal :=
  .next (opWrcol s.issuer p s)

/-- RDCMB (R101). -/
def execRdcmb (s : State) : Host.Outcome State Fault Refusal :=
  .next (opRdcmb s.issuer s)

/-- WROUT (R102). -/
def execWrout (w : OutWord) (s : State) : Host.Outcome State Fault Refusal :=
  .next (opWrout s.issuer w s)

/-- ISTAT (R103). -/
def execIstat (s : State) : Host.Outcome State Fault Refusal :=
  .next (opIstat s.issuer s)

/-- IDIS (R104); the mask is `arg[MASK_W-1:0]` (R80). -/
def execIdis (arg : Mask) (s : State) : Host.Outcome State Fault Refusal :=
  .next (opIdis s.issuer (maskArg s.cfg arg) s)

/-- ICLR (R105); the mask is `arg[MASK_W-1:0]` (R80). -/
def execIclr (arg : Mask) (s : State) : Host.Outcome State Fault Refusal :=
  .next (opIclr s.issuer (maskArg s.cfg arg) s)

/-- IEN (R106); the mask is `arg[MASK_W-1:0]` (R80). -/
def execIen (arg : Mask) (s : State) : Host.Outcome State Fault Refusal :=
  .next (opIen s.issuer (maskArg s.cfg arg) s)

/-- Operation code 7: "a model refuses it by name" (R81), "the step relation has no transition for it"
(R107, U4). -/
def execReservedOp7 (_s : State) : Host.Outcome State Fault Refusal :=
  .refused .reservedOp

end Sys2Proof.Machine
end

