-- ==== Sys2Proof/Machine/Sequencer.lean ====
section
/-! DEFINITION. The rows of format HS: the step of each sequencer state (R150 to R157, collected in R159).
A meaning is the rule's own step and does not read `HS`; the fetch runs it when `HS` holds its code. -/

namespace Sys2Proof.Machine

/-- S_IDLE (R150): on the event INVOKE, `Emit(INVOKE); HS <- S_DIS`, whatever `IE` and `IS`; without a
pulse on `invoke_i` the sequencer waits and nothing changes. -/
def execSIdle (s : State) : Host.Outcome State Fault Refusal :=
  .next (if s.invokeI then takeInvoke { s with invokeI := false } else s)

/-- S_DIS (R151): `IDIS(CH_MASK); HS <- S_CHK`. -/
def execSDis (s : State) : Host.Outcome State Fault Refusal :=
  .next ((opIdis .sequencer (chMask s.cfg) s).goto .sChk)

/-- S_CHK (R152): `t = ISTAT()`; when bit `CH` of `t` is set, COLINIT and `HS <- S_COL`; else
RETURN(early), and nothing is re-enabled. -/
def execSChk (s : State) : Host.Outcome State Fault Refusal :=
  .next (if confirmFlag s.cfg s.isr then (opColInit (opIstat .sequencer s)).goto .sCol
    else returnFromHandler .early (opIstat .sequencer s))

/-- S_COL (R153): `WRCOL(P); HS <- S_RD`. -/
def execSCol (s : State) : Host.Outcome State Fault Refusal :=
  .next ((opWrcol .sequencer s.p s).goto .sRd)

/-- S_RD (R154): read, decode, `RES <- d`; a hit or the fourth miss goes to S_OUT, another miss to the
next column. -/
def execSRd (s : State) : Host.Outcome State Fault Refusal :=
  let t := opScanRead s
  .next (if hitFlag t.res then t.goto .sOut
    else if s.k = 3#2 then t.goto .sOut
    else (opNextCol t).goto .sCol)

/-- S_OUT (R155): `w = if RES[4] = 0 then RES else NOKEY_OUT; WROUT(w); HS <- S_CLR`. -/
def execSOut (s : State) : Host.Outcome State Fault Refusal :=
  .next ((opWrout .sequencer (outWord s.cfg s.res) s).goto .sClr)

/-- S_CLR (R156): `ICLR(CH_MASK); HS <- S_EN`. -/
def execSClr (s : State) : Host.Outcome State Fault Refusal :=
  .next ((opIclr .sequencer (chMask s.cfg) s).goto .sEn)

/-- S_EN (R157): `IEN(CH_MASK); Emit(RETURN(normal)); HS <- S_IDLE`. -/
def execSEn (s : State) : Host.Outcome State Fault Refusal :=
  .next (returnFromHandler .normal (opIen .sequencer (chMask s.cfg) s))

/-- The command word the sequencer forms in a state (R80, R151 to R157): none while idle. -/
def sequencerWord (s : State) : Option CmdWord :=
  match s.hs with
  | .sIdle => none
  | .sDis => some (CmdWord.mk 4#3 (chMask s.cfg))
  | .sChk => some (CmdWord.mk 3#3 0#8)
  | .sCol => some (CmdWord.mk 0#3 (s.p.setWidth 8))
  | .sRd => some (CmdWord.mk 1#3 0#8)
  | .sOut => some (CmdWord.mk 2#3 ((outWord s.cfg s.res).setWidth 8))
  | .sClr => some (CmdWord.mk 5#3 (chMask s.cfg))
  | .sEn => some (CmdWord.mk 6#3 (chMask s.cfg))

end Sys2Proof.Machine
end

