-- ==== Sys2Proof/Machine/Dispatch.lean ====
section
/-! DEFINITION. The meaning of every instruction: one arm per constructor. -/

namespace Sys2Proof.Machine

def exec (i : Instr) (s : State) : Host.Outcome State Fault Refusal :=
  match i with
  | .wrcol p => Sys2Proof.Machine.execWrcol p s
  | .rdcmb => Sys2Proof.Machine.execRdcmb s
  | .wrout w => Sys2Proof.Machine.execWrout w s
  | .istat => Sys2Proof.Machine.execIstat s
  | .idis a => Sys2Proof.Machine.execIdis a s
  | .iclr a => Sys2Proof.Machine.execIclr a s
  | .ien a => Sys2Proof.Machine.execIen a s
  | .reservedOp7 => Sys2Proof.Machine.execReservedOp7 s
  | .keydecK0 => Sys2Proof.Machine.execKeydecK0 s
  | .keydecK1 => Sys2Proof.Machine.execKeydecK1 s
  | .keydecK2 => Sys2Proof.Machine.execKeydecK2 s
  | .keydecK3 => Sys2Proof.Machine.execKeydecK3 s
  | .keydecK4 => Sys2Proof.Machine.execKeydecK4 s
  | .keydecK5 => Sys2Proof.Machine.execKeydecK5 s
  | .keydecK6 => Sys2Proof.Machine.execKeydecK6 s
  | .keydecK7 => Sys2Proof.Machine.execKeydecK7 s
  | .keydecK8 => Sys2Proof.Machine.execKeydecK8 s
  | .keydecK9 => Sys2Proof.Machine.execKeydecK9 s
  | .keydecK10 => Sys2Proof.Machine.execKeydecK10 s
  | .keydecK11 => Sys2Proof.Machine.execKeydecK11 s
  | .keydecK12 => Sys2Proof.Machine.execKeydecK12 s
  | .keydecK13 => Sys2Proof.Machine.execKeydecK13 s
  | .keydecK14 => Sys2Proof.Machine.execKeydecK14 s
  | .keydecK15 => Sys2Proof.Machine.execKeydecK15 s
  | .keydecMiss rows cols => Sys2Proof.Machine.execKeydecMiss rows cols s
  | .sIdle => Sys2Proof.Machine.execSIdle s
  | .sDis => Sys2Proof.Machine.execSDis s
  | .sChk => Sys2Proof.Machine.execSChk s
  | .sCol => Sys2Proof.Machine.execSCol s
  | .sRd => Sys2Proof.Machine.execSRd s
  | .sOut => Sys2Proof.Machine.execSOut s
  | .sClr => Sys2Proof.Machine.execSClr s
  | .sEn => Sys2Proof.Machine.execSEn s

end Sys2Proof.Machine
end

