-- ==== Sys2Proof/Machine/Environment.lean ====
section
/-! DEFINITION. The events of the environment that are no operation of the block: EDGE (R180), KEY_DOWN and
KEY_UP (R185), H_RDOUT (R193), RESET (R240), and the host's boot duties (R244). -/

namespace Sys2Proof.Machine

/-- EDGE(m) (R180): `ISR <- ISR OR m; Emit(EDGE(m))`, whatever `IER` and `HS`. There is one pin per
channel; pulses on no pin are no event (log 11). -/
def envEdge (m : Mask) (s : State) : State :=
  if maskArg s.cfg m = 0#8 then s
  else { s with isr := s.isr ||| maskArg s.cfg m }.emit (.edge (maskArg s.cfg m))

/-- KEY_DOWN(r, c) (R185): `H <- H ∪ (r, c)`, one event, no register of the block. -/
def envKeyDown (r c : Line) (s : State) : State :=
  { s with held := setKey s.held r c true }.emit (.keyDown r c)

/-- KEY_UP(r, c) (R185). -/
def envKeyUp (r c : Line) (s : State) : State :=
  { s with held := setKey s.held r c false }.emit (.keyUp r c)

/-- H_RDOUT (R193): the result is `OUT` once written, any value before; no register changes. -/
def envRdout (s : State) : State :=
  (if s.outv then s else { s with free := s.free + 1 }).emit (.hRdout (outRead s))

/-- RESET (R240): every register takes its value of R36, the trace restarts with `RESET`, an invocation in
progress is abandoned without a RETURN. The environment is not touched (R243), nor are the parameters. -/
def envReset (s : State) : State :=
  { State.reset with
    rst := true, held := s.held, rows := s.rows, cfg := s.cfg, inputs := s.inputs, free := s.free }

/-- The boot duties of R244 that are commands: `H_WRCOL(p)`, `H_WROUT(w)`, `H_ICLR(CH_MASK)`,
`H_IEN(CH_MASK)`, in that order. -/
def bootDuties (c : Config) (p : Nibble) (w : OutWord) : List Input :=
  [.hcmd (CmdWord.mk 0#3 (p.setWidth 8)), .hcmd (CmdWord.mk 2#3 (w.setWidth 8)),
    .hcmd (CmdWord.mk 5#3 (chMask c)), .hcmd (CmdWord.mk 6#3 (chMask c))]

end Sys2Proof.Machine
end

