-- ==== Sys2Proof/Machine/Fetch.lean ====
section
/-! DEFINITION. Whose turn it is (R198): the next act of the list `inputs`, or the sequencer when none is
listed. The sequencer's turn fetches the code in `HS`, a host command the word on `hcmd_i`. -/

namespace Sys2Proof.Machine

/-- What a turn comes to. -/
inductive Turn where
  /-- An instruction runs in this state. -/
  | run (i : Instr) (s : State)
  /-- An act of the environment is done, or has no effect. -/
  | settled (s : State)
  /-- The act is no transition of the machine. -/
  | stop (r : Refusal)
  deriving DecidableEq, Repr

/-- A turn while `rst` is low: each act with the enabling condition its rule gives. -/
def turnRunning (i : Input) (s : State) : Turn :=
  match i with
  | .seq => .run (decodeState s.hs.code) s
  | .hcmd w => if s.idle then .run (decodeCmd w) s else .stop .hostWhileBusy
  | .rom a => .run (decodeRom a) s
  | .edge m => .settled (envEdge m s)
  | .invoke =>
    if s.busy then .settled s
    else if s.invokeEnabled then .run (decodeState s.hs.code) { s with invokeI := true }
    else .stop .invokeNotEnabled
  | .keyDown r c =>
    if s.cfg.rowsEnv = .keypad then .settled (envKeyDown r c s) else .stop .keyEventWithoutKeypad
  | .keyUp r c =>
    if s.cfg.rowsEnv = .keypad then .settled (envKeyUp r c s) else .stop .keyEventWithoutKeypad
  | .hRdout => .settled (envRdout s)
  | .rst high => .settled (if high then envReset s else { s with rst := false })

/-- A turn while `rst` is held high: EDGE, INVOKE, host commands and the sequencer "have no effect and are
not events" (R241); the keys, the sampled pins and the ROM are not the registers' (R243, log 13). -/
def turnInReset (i : Input) (s : State) : Turn :=
  match i with
  | .seq => .settled s
  | .hcmd _ => .settled s
  | .rom a => .run (decodeRom a) s
  | .edge _ => .settled s
  | .invoke => .settled s
  | .keyDown r c =>
    if s.cfg.rowsEnv = .keypad then .settled (envKeyDown r c s) else .stop .keyEventWithoutKeypad
  | .keyUp r c =>
    if s.cfg.rowsEnv = .keypad then .settled (envKeyUp r c s) else .stop .keyEventWithoutKeypad
  | .hRdout => .settled (envRdout s)
  | .rst high => .settled (if high then envReset s else { s with rst := false })

/-- Whose act is next: the head of the list, or the sequencer's when none is listed (R198, log 2). -/
def State.nextAct (s : State) : Input := s.inputs.headD .seq

/-- The pins that pulse come to rest, and the act is taken off the list. -/
def State.takeAct (s : State) : State := { s.settlePins with inputs := s.inputs.tail }

/-- The next turn (R198), by the level of `rst` (R241). -/
def nextTurn (s : State) : Turn :=
  if s.rst then turnInReset s.nextAct s.takeAct else turnRunning s.nextAct s.takeAct

/-- The state in which the next turn runs the instruction whose table bits are `w` (`tableFormat` says
which format): a state code goes into `HS` with the sequencer's turn next, a ROM address and a command
word are presented next, the latter to an idle block (R108); `rst` is low (log 6). -/
def placeTableWord (s : State) (nbits w : Nat) : State :=
  match tableFormat nbits w with
  | .hs => { s with hs := HState.ofCode (BitVec.ofNat 3 w), inputs := .seq :: s.inputs, rst := false }
  | .dr => { s with inputs := .rom (BitVec.ofNat 8 w) :: s.inputs }
  | .cmd => { s with hs := .sIdle, inputs := .hcmd (BitVec.ofNat 11 w) :: s.inputs, rst := false }

end Sys2Proof.Machine
end

