-- ==== Sys2Proof/Machine/Step.lean ====
section
/-! DEFINITION. One step of the machine: one atomic act of one agent (R7, R198). -/

namespace Sys2Proof.Machine

/-- One step: the next turn's instruction runs, or the environment's act is done, or the act is refused. -/
def step (s : State) : Host.Outcome State Fault Refusal :=
  match nextTurn s with
  | .run i t => exec i t
  | .settled t => .next t
  | .stop r => .refused r

/-- `s` with the instruction whose table bits are `w` placed where the next step fetches it. -/
def State.withFetchWord (s : State) (nbits w : Nat) : State := placeTableWord s nbits w

end Sys2Proof.Machine
end

