-- ==== Sys2Proof/Machine/Composite.lean ====
section
/-! DEFINITION. The composite operations SCAN (R129) and HANDLER (R158) as functions, and the sweep as a
function of its row readings (R129). They are what the sequencer's steps add up to; the block has no
pin that starts either (R135). -/

namespace Sys2Proof.Machine

/-- SCANSTEP (R127): `WRCOL(P)`, then read and decode. -/
def scanStep (s : State) : State := opScanRead (opWrcol .sequencer s.p s)

/-- The loop of SCAN (R129), with `n` columns left at most. -/
def scanLoop : Nat → State → State
  | 0, s => s
  | n + 1, s =>
    let t := scanStep s
    if hitFlag t.res then t
    else if t.k = 3#2 then t
    else scanLoop n (opNextCol t)

/-- SCAN, one sweep (R129). -/
def scan (s : State) : State := scanLoop 4 (opColInit s)

/-- HANDLER, one invocation with no act of another agent in it (R158). -/
def handler (s : State) : State :=
  let m := chMask s.cfg
  let a := opIstat .sequencer (opIdis .sequencer m s.settlePins)
  if confirmFlag a.cfg a.isr then
    let b := scan a
    let d := opWrout .sequencer (outWord b.cfg b.res) b
    returnFromHandler .normal (opIen .sequencer m (opIclr .sequencer m d.settlePins))
  else returnFromHandler .early a

/-- The result of a sweep whose row readings at steps 0 to 3 would be these: the code of the first
reading that is a hit, `none` for "no key" (R129, R130). -/
def sweepResult (rb0 rb1 rb2 rb3 : Nibble) : Option KeyCode :=
  (lookupTable 0b1110#4 rb0).orElse fun _ =>
    (lookupTable 0b1101#4 rb1).orElse fun _ =>
      (lookupTable 0b1011#4 rb2).orElse fun _ => lookupTable 0b0111#4 rb3

/-- How many columns that sweep tries (R129): one more than the step of the first hit, or 4. -/
def sweepLength (rb0 rb1 rb2 : Nibble) : Nat :=
  if (lookupTable 0b1110#4 rb0).isSome then 1
  else if (lookupTable 0b1101#4 rb1).isSome then 2
  else if (lookupTable 0b1011#4 rb2).isSome then 3
  else 4

end Sys2Proof.Machine
end

