-- ==== Sys2Proof/Safety.lean ====
section
/-! DEFINITION. What a good state and a good trace are: the invariant of R24, R25, R28, R29, R131 and R161,
the protocol of R159, R162 and R163 as a check of the trace, and `GATED`'s guarantee (R167). -/

namespace Sys2Proof.Machine

/-- The masks hold no bit from `MASK_W` up (R24, R25). -/
def State.masksInWidth (s : State) : Bool :=
  s.ier &&& ~~~maskBits s.cfg == 0#8 && s.isr &&& ~~~maskBits s.cfg == 0#8

/-- From the end of S_DIS to the end of S_EN the source is disabled (R161). -/
def State.disabledMidService (s : State) : Bool :=
  match s.hs with
  | .sIdle => true
  | .sDis => true
  | _ => !s.ie

/-- The values `0x11` to `0x1F` never occur in `RES` (R29). -/
def State.resLegal (s : State) : Bool := hitFlag s.res || s.res == 0x10#5

/-- The sweep's registers: `P = rotl4^K(1110)` during a sweep (R28), `RES = 0x10` until a hit, `COL = P`
from the column write on, and at the end a miss only on the last column (R131). From the output write
to the return the latch holds the result (R155). -/
def State.sweepLegal (s : State) : Bool :=
  match s.hs with
  | .sIdle => true
  | .sDis => true
  | .sChk => true
  | .sCol => s.p == rotl4Iter s.k.toNat 0b1110#4 && s.res == 0x10#5
  | .sRd => s.p == rotl4Iter s.k.toNat 0b1110#4 && s.res == 0x10#5 && s.col == s.p
  | .sOut => s.p == rotl4Iter s.k.toNat 0b1110#4 && s.col == s.p && (hitFlag s.res || s.k == 3#2)
  | .sClr => s.p == rotl4Iter s.k.toNat 0b1110#4 && s.col == s.p && (hitFlag s.res || s.k == 3#2)
      && s.outv && s.out == outWord s.cfg s.res
  | .sEn => s.p == rotl4Iter s.k.toNat 0b1110#4 && s.col == s.p && (hitFlag s.res || s.k == 3#2)
      && s.outv && s.out == outWord s.cfg s.res

/-- The invariant of the block. -/
abbrev State.Inv (s : State) : Prop :=
  s.cfg.wf = true ∧ s.masksInWidth = true ∧ s.disabledMidService = true ∧ s.resLegal = true
    ∧ s.sweepLegal = true

/-- Under `GATED` an invocation finds its flag set: `ISR[CH] = 1` from the INVOKE to S_CHK (R167). -/
abbrev State.GatedPending (s : State) : Prop :=
  s.cfg.invokePolicy = .gated → (s.hs = .sDis ∨ s.hs = .sChk) → s.is = true

/-- Where a trace stands in the protocol of R163. -/
inductive Phase where
  | idle
  | disable
  | confirm
  | leaveEarly
  | drive (k : BitVec 2)
  | read (k : BitVec 2)
  | output (d : DecodeResult)
  | clear
  | enable
  | leaveNormal
  deriving DecidableEq, Repr

/-- The sequencer's operations in the order of R163, each with the argument R163 gives it; the branches
after `ISTAT` (R152) and `RDCMB` (R154) are decided by the values those returned. -/
def sequencerPhase (c : Config) (o : OpEvent) (ph : Phase) : Option Phase :=
  match o, ph with
  | .idis m, .disable => if m = chMask c then some .confirm else none
  | .istat m, .confirm => some (if confirmFlag c m then .drive 0#2 else .leaveEarly)
  | .wrcol p, .drive k => if p = rotl4Iter k.toNat 0b1110#4 then some (.read k) else none
  | .rdcmb v, .read k =>
    let p := rotl4Iter k.toNat 0b1110#4
    let d := romRead (romAddr (rowSel v) p)
    if v.extractLsb' 0 4 = p then
      some (if hitFlag d then .output d else if k = 3#2 then .output d else .drive (k + 1#2))
    else none
  | .wrout w, .output d => if w = outWord c d then some .clear else none
  | .iclr m, .clear => if m = chMask c then some .enable else none
  | .ien m, .enable => if m = chMask c then some .leaveNormal else none
  | _, _ => none

/-- One event of the trace: the host acts and INVOKE comes only between invocations (R195, R213), a
RETURN only at the protocol's two exits (R211), RESET anywhere (R240), the rest anywhere. -/
def nextPhase (c : Config) (ph : Phase) (e : Event) : Option Phase :=
  match e with
  | .reset => some .idle
  | .op .host _ => if ph = .idle then some .idle else none
  | .op .sequencer o => sequencerPhase c o ph
  | .hRdout _ => some ph
  | .edge _ => some ph
  | .invoke => if ph = .idle then some .disable else none
  | .ret .early => if ph = .leaveEarly then some .idle else none
  | .ret .normal => if ph = .leaveNormal then some .idle else none
  | .keyDown _ _ => some ph
  | .keyUp _ _ => some ph

/-- Where a whole trace stands, `none` when it breaks the protocol. -/
def tracePhase (c : Config) (t : List Event) : Option Phase :=
  t.foldl (fun ph e => ph.bind fun q => nextPhase c q e) (some .idle)

/-- Where the sequencer stands in the protocol. -/
def State.phase (s : State) : Phase :=
  match s.hs with
  | .sIdle => .idle
  | .sDis => .disable
  | .sChk => .confirm
  | .sCol => .drive s.k
  | .sRd => .read s.k
  | .sOut => .output s.res
  | .sClr => .clear
  | .sEn => .enable

/-- The trace follows the protocol and stands where the sequencer stands (R159, R162, R163). -/
abbrev State.TraceLegal (s : State) : Prop := tracePhase s.cfg s.trace = some s.phase

/-- The event of a performed primitive operation (R109). -/
def Event.isOperation : Event → Bool
  | .op _ _ => true
  | _ => false

/-- Exactly the key at `(r, c)` is held (R184). -/
abbrev State.OnlyKeyHeld (s : State) (r c : Line) : Prop :=
  ∀ r' c' : Line, keyHeld s.held r' c' = (decide (r' = r) && decide (c' = c))

/-- In column `c` the key of row `r` is held and no other (R134). -/
abbrev State.SoleKeyOf (s : State) (r c : Line) : Prop :=
  ∀ r' : Line, keyHeld s.held r' c = decide (r' = r)

/-- The next turn is the sequencer's: `rst` is low and no other agent's act is listed next (R198). -/
abbrev State.sequencerNext (s : State) : Prop :=
  s.rst = false ∧ (s.inputs = [] ∨ ∃ rest, s.inputs = .seq :: rest)

end Sys2Proof.Machine
end

