-- ==== Sys2Proof/Certificates/Slice0/Obligations.lean ====
section
/-! DEFINITION. The statements for the provers. Each cites the rules it is about; where a clause is the
model's own choice the docstring names the log entry. -/

open Sys2Proof Sys2Proof.Machine

/-- With rst low: when no act is listed, or the sequencer's turn is next, the step is exec of the
instruction that the code in HS decodes to; when a host command is next and the block is idle, exec
of the instruction its word decodes to; when a ROM address is next, exec of its row; when an enabled
INVOKE is next, exec of S_IDLE with invoke_i pulsed. Around exec the step only brings the one-step
pins to rest and takes the act off the list. The model's own choices in it: the empty list is the
sequencer's turn (log 2), a ROM address presented by itself runs its row (log 5; R135 gives no pin
for it), S_IDLE is run as a row with the pulse as a field (log 16), the one-step pins (log 12).
(R108, R159, R198) -/
def Obligations.StepRunsDecodedInstruction : Prop :=
  ∀ (s : State) (i : Instr), s.rst = false →
    (s.inputs = [] → decode .hs s.hs.code.toNat = .ok i → step s = exec i s.settlePins)
    ∧ (∀ rest, s.inputs = .seq :: rest → decode .hs s.hs.code.toNat = .ok i →
        step s = exec i { s.settlePins with inputs := rest })
    ∧ (∀ (w : CmdWord) rest, s.inputs = .hcmd w :: rest → s.idle = true →
        decode .cmd w.toNat = .ok i → step s = exec i { s.settlePins with inputs := rest })
    ∧ (∀ (a : RomAddr) rest, s.inputs = .rom a :: rest → decode .dr a.toNat = .ok i →
        step s = exec i { s.settlePins with inputs := rest })
    ∧ (∀ rest, s.inputs = .invoke :: rest → s.invokeEnabled = true →
        step s = exec .sIdle { s.settlePins with inputs := rest, invokeI := true })

/-- When a table word decodes to an instruction, the step of the state with that word placed is exec of
that instruction, in the original state with its pins at rest, its list of acts unchanged, and, by
format: HS holding the code (rst low), HS idle (rst low), or both as they were. The whole statement
is about the model's own placement of a table word (log 6) and its own rule for the format of a
word, by which a byte below 8 is a state code (log 7); the rules cited give only the three formats'
widths. (R78, R76, R82) -/
def Obligations.FetchWordRunsTableWord : Prop :=
  ∀ (s : State) (nbits w : Nat) (i : Instr), decodeTableWord nbits w = some i →
    ∃ t : State, step (s.withFetchWord nbits w) = exec i t
      ∧ t = { s.settlePins with hs := t.hs, rst := t.rst }
      ∧ (tableFormat nbits w = .hs → t.hs.code.toNat = w ∧ t.rst = false)
      ∧ (tableFormat nbits w = .cmd → t.hs = .sIdle ∧ t.rst = false)
      ∧ (tableFormat nbits w = .dr → t.hs = s.hs ∧ t.rst = s.rst)

/-- 00E and 0FE are WRCOL(1110), 1A5 is RDCMB, 2EE is WROUT(0x0E), 300 is ISTAT, 401 is IDIS of 0x01,
501 ICLR, 601 IEN, 7FF the reserved code; address ED is key 14, E7 key 0, CD a miss; code 4 is S_RD.
That 7FF decodes to a row, whose meaning refuses, is the model's reading of R107 (log 8).
(95_test_vectors.md section 2.5, R75, R82) -/
def Obligations.SpecWordsDecode : Prop :=
  decode .cmd 0x00E = .ok (.wrcol 0b1110#4) ∧ decode .cmd 0x0FE = .ok (.wrcol 0b1110#4)
    ∧ decode .cmd 0x1A5 = .ok .rdcmb ∧ decode .cmd 0x2EE = .ok (.wrout 0x0E#5)
    ∧ decode .cmd 0x300 = .ok .istat ∧ decode .cmd 0x401 = .ok (.idis 0x01#8)
    ∧ decode .cmd 0x501 = .ok (.iclr 0x01#8) ∧ decode .cmd 0x601 = .ok (.ien 0x01#8)
    ∧ decode .cmd 0x7FF = .ok .reservedOp7
    ∧ decode .dr 0xED = .ok .keydecK14 ∧ decode .dr 0xE7 = .ok .keydecK0
    ∧ decode .dr 0xCD = .ok (.keydecMiss 0b1100#4 0b1101#4)
    ∧ decode .hs 4 = .ok .sRd

/-- For every well-formed instruction of all three formats and every operand value, decode of its format
and word is the instruction itself. (R75, R77, R79, R80, R82) -/
def Obligations.DecodeEncodeRoundTrip : Prop :=
  ∀ i : Instr, i.wf = true → decode (encode i).1 (encode i).2 = .ok i

/-- A word decodes exactly when it fits its format's width; then the instruction is well formed and its
encoding is the same word with the bits the row ignores set to 0. That the words of operation code 7
decode too, to a row of their own, is the model's (log 8): R107 has the decoder refuse them. (R80,
R77, R81) -/
def Obligations.EncodeKeepsUsedBits : Prop :=
  ∀ (f : Format) (w : Nat),
    (w < 2 ^ formatWidth f ↔ ∃ i, decode f w = .ok i)
    ∧ ∀ i, decode f w = .ok i → i.wf = true ∧ encode i = (f, w &&& usedBits i)

/-- A command word with op 0 is WRCOL of arg[3:0]. In every state WRCOL(p) completes with COL = p and
the event appended, everything else unchanged, and the column pins show p. (R100) -/
def Obligations.WrcolWritesColumns : Prop :=
  (∀ w : CmdWord, CmdWord.op w = 0#3 → decodeCmd w = .wrcol ((CmdWord.arg w).extractLsb' 0 4))
    ∧ ∀ (p : Nibble) (s : State), ∃ t, exec (.wrcol p) s = .next t ∧ t.colO = p
      ∧ t = { s with col := p, trace := s.trace ++ [Event.op s.issuer (.wrcol p)] }

/-- A command word with op 1 is RDCMB whatever its argument. In every state RDCMB completes; the value v
in its event has the row sample in bits 7 to 4 and COL in bits 3 to 0; the host gets v on hrdata;
the environment's oracle moves on; nothing else changes. That the value is the pins' sample and that
the oracle moves on by one element is R183, with the counter of free values the model's (log 3);
that the host gets the data on hrdata is R108, with the port's owner read from HS (log 14) and the
data held for one step (log 12). (R101, R108, R183) -/
def Obligations.RdcmbReadsRowsAndColumns : Prop :=
  (∀ w : CmdWord, CmdWord.op w = 1#3 → decodeCmd w = .rdcmb)
    ∧ ∀ s : State, ∃ (t : State) (v : Combined), exec .rdcmb s = .next t
      ∧ v.extractLsb' 4 4 = rowSample s ∧ v.extractLsb' 0 4 = s.col
      ∧ t = { consumeRow s with
                hrdata := if s.idle then some v else s.hrdata
                trace := s.trace ++ [Event.op s.issuer (.rdcmb v)] }
      ∧ consumeRow s = { s with rows := (consumeRow s).rows, free := (consumeRow s).free }

/-- A command word with op 2 is WROUT of arg[4:0]. In every state WROUT(w) completes with OUT = w, OUTV
= 1, one pulse on out_we_o and the event appended, everything else unchanged, and the sink pins show
w. (R102) -/
def Obligations.WroutWritesOutputLatch : Prop :=
  (∀ w : CmdWord, CmdWord.op w = 2#3 → decodeCmd w = .wrout ((CmdWord.arg w).extractLsb' 0 5))
    ∧ ∀ (w : OutWord) (s : State), ∃ t, exec (.wrout w) s = .next t ∧ t.outO = w
      ∧ t = { s with
                out := w, outv := true, outWe := true
                trace := s.trace ++ [Event.op s.issuer (.wrout w)] }

/-- A command word with op 3 is ISTAT whatever its argument. In every state ISTAT completes; its event
holds ISR, not masked by IER; the host gets ISR on hrdata; nothing else changes. That the host gets
the data on hrdata is R108, with the port's owner read from HS (log 14) and the data held for one
step (log 12). (R103, R108) -/
def Obligations.IstatReturnsWholeStatus : Prop :=
  (∀ w : CmdWord, CmdWord.op w = 3#3 → decodeCmd w = .istat)
    ∧ ∀ s : State, exec .istat s = .next
        { s with
          hrdata := if s.idle then some s.isr else s.hrdata
          trace := s.trace ++ [Event.op s.issuer (.istat s.isr)] }

/-- A command word with op 4 is IDIS of its argument. In every state IDIS completes with IER AND NOT m
for m = arg[MASK_W-1:0] and the event appended, everything else (ISR among it) unchanged; when m
names bit CH, irq_o is 0. (R104) -/
def Obligations.IdisClearsEnableBits : Prop :=
  (∀ w : CmdWord, CmdWord.op w = 4#3 → decodeCmd w = .idis (CmdWord.arg w))
    ∧ ∀ (arg : Mask) (s : State), ∃ t, exec (.idis arg) s = .next t
      ∧ t = { s with
                ier := s.ier &&& ~~~(arg &&& maskBits s.cfg)
                trace := s.trace ++ [Event.op s.issuer (.idis (arg &&& maskBits s.cfg))] }
      ∧ ((arg &&& maskBits s.cfg).getLsbD s.cfg.ch = true → t.irq = false)

/-- A command word with op 5 is ICLR of its argument. In every state ICLR completes with ISR AND NOT m
for m = arg[MASK_W-1:0] and the event appended, everything else (IER among it) unchanged; when m
names bit CH, irq_o is 0. (R105) -/
def Obligations.IclrClearsStatusBits : Prop :=
  (∀ w : CmdWord, CmdWord.op w = 5#3 → decodeCmd w = .iclr (CmdWord.arg w))
    ∧ ∀ (arg : Mask) (s : State), ∃ t, exec (.iclr arg) s = .next t
      ∧ t = { s with
                isr := s.isr &&& ~~~(arg &&& maskBits s.cfg)
                trace := s.trace ++ [Event.op s.issuer (.iclr (arg &&& maskBits s.cfg))] }
      ∧ ((arg &&& maskBits s.cfg).getLsbD s.cfg.ch = true → t.irq = false)

/-- A command word with op 6 is IEN of its argument. In every state IEN completes with IER OR m for m =
arg[MASK_W-1:0] and the event appended, everything else (ISR among it) unchanged; when m names bit
CH, irq_o equals ISR[CH]. (R106) -/
def Obligations.IenSetsEnableBits : Prop :=
  (∀ w : CmdWord, CmdWord.op w = 6#3 → decodeCmd w = .ien (CmdWord.arg w))
    ∧ ∀ (arg : Mask) (s : State), ∃ t, exec (.ien arg) s = .next t
      ∧ t = { s with
                ier := s.ier ||| (arg &&& maskBits s.cfg)
                trace := s.trace ++ [Event.op s.issuer (.ien (arg &&& maskBits s.cfg))] }
      ∧ ((arg &&& maskBits s.cfg).getLsbD s.cfg.ch = true → t.irq = s.is)

/-- A command word decodes to the row of its top three bits, whatever its other bits: to the reserved
row exactly when they are 7. In every state exec of the reserved row is the refusal reservedOp. With
rst low and a command word next, the step of an idle block is that refusal when the word's code is 7
and a next state when it is any other. The sequencer's word never has code 7. That code 7 decodes to
a row and its meaning refuses, where R107 has the decoder refuse, is the model's (log 8). (R81,
R107) -/
def Obligations.ReservedOpIsRefused : Prop :=
  (∀ w : CmdWord,
      (CmdWord.op w = 0#3 → ∃ p, decodeCmd w = .wrcol p)
      ∧ (CmdWord.op w = 1#3 → decodeCmd w = .rdcmb)
      ∧ (CmdWord.op w = 2#3 → ∃ v, decodeCmd w = .wrout v)
      ∧ (CmdWord.op w = 3#3 → decodeCmd w = .istat)
      ∧ (CmdWord.op w = 4#3 → ∃ m, decodeCmd w = .idis m)
      ∧ (CmdWord.op w = 5#3 → ∃ m, decodeCmd w = .iclr m)
      ∧ (CmdWord.op w = 6#3 → ∃ m, decodeCmd w = .ien m)
      ∧ (decodeCmd w = .reservedOp7 ↔ CmdWord.op w = 7#3))
    ∧ (∀ s : State, exec .reservedOp7 s = .refused .reservedOp)
    ∧ (∀ (s : State) (w : CmdWord) rest, s.rst = false → s.idle = true →
        s.inputs = .hcmd w :: rest → CmdWord.op w = 7#3 → step s = .refused .reservedOp)
    ∧ (∀ (s : State) (w : CmdWord) rest, s.rst = false → s.idle = true →
        s.inputs = .hcmd w :: rest → CmdWord.op w ≠ 7#3 → ∃ t : State, step s = .next t)
    ∧ ∀ (s : State) (w : CmdWord), sequencerWord s = some w → CmdWord.op w ≠ 7#3

/-- With rst low and a command word next: while HS is not S_IDLE the step is the refusal hostWhileBusy.
While idle, by op: H_WRCOL, H_RDCMB, H_WROUT, H_ISTAT, H_IDIS, H_ICLR, H_IEN have the effect of the
operation, with an event tagged as the host's, read data on hrdata, the pulses at rest but the
operation's own, and nothing else changed. That a command while busy is the refusal hostWhileBusy is
the model's reading of R195 (log 9), and the one-step pins are log 12. (R186, R187, R188, R189,
R190, R191, R192, R195) -/
def Obligations.HostCommandsActWhenIdle : Prop :=
  ∀ (s : State) (w : CmdWord) (rest : List Input), s.rst = false → s.inputs = .hcmd w :: rest →
    let a := CmdWord.arg w
    let m := a &&& maskBits s.cfg
    let u := { s with inputs := rest, outWe := false, ret := false, hrdata := none, invokeI := false }
    (s.hs ≠ .sIdle → step s = .refused .hostWhileBusy)
    ∧ (s.hs = .sIdle →
      (CmdWord.op w = 0#3 → step s = .next
          { u with
            col := a.extractLsb' 0 4
            trace := s.trace ++ [Event.op .host (.wrcol (a.extractLsb' 0 4))] })
      ∧ (CmdWord.op w = 1#3 → step s = .next
          { u with
            rows := (consumeRow s).rows, free := (consumeRow s).free
            hrdata := some (rowSample s ++ s.col)
            trace := s.trace ++ [Event.op .host (.rdcmb (rowSample s ++ s.col))] })
      ∧ (CmdWord.op w = 2#3 → step s = .next
          { u with
            out := a.extractLsb' 0 5, outv := true, outWe := true
            trace := s.trace ++ [Event.op .host (.wrout (a.extractLsb' 0 5))] })
      ∧ (CmdWord.op w = 3#3 → step s = .next
          { u with hrdata := some s.isr, trace := s.trace ++ [Event.op .host (.istat s.isr)] })
      ∧ (CmdWord.op w = 4#3 → step s = .next
          { u with ier := s.ier &&& ~~~m, trace := s.trace ++ [Event.op .host (.idis m)] })
      ∧ (CmdWord.op w = 5#3 → step s = .next
          { u with isr := s.isr &&& ~~~m, trace := s.trace ++ [Event.op .host (.iclr m)] })
      ∧ (CmdWord.op w = 6#3 → step s = .next
          { u with ier := s.ier ||| m, trace := s.trace ++ [Event.op .host (.ien m)] }))

/-- The address is the row reading above the column pattern; each of the sixteen addresses of the table
gives its key code with bit 4 zero, and each of the other 240 gives 0x10. (R76) -/
def Obligations.RomHoldsTheLookupTable : Prop :=
  (∀ rb p : Nibble, romAddr rb p = rb ++ p)
    ∧ romRead 0xE7#8 = 0x00#5 ∧ romRead 0x77#8 = 0x01#5 ∧ romRead 0x7B#8 = 0x02#5
    ∧ romRead 0x7D#8 = 0x03#5 ∧ romRead 0xB7#8 = 0x04#5 ∧ romRead 0xBB#8 = 0x05#5
    ∧ romRead 0xBD#8 = 0x06#5 ∧ romRead 0xD7#8 = 0x07#5 ∧ romRead 0xDB#8 = 0x08#5
    ∧ romRead 0xDD#8 = 0x09#5 ∧ romRead 0x7E#8 = 0x0A#5 ∧ romRead 0xBE#8 = 0x0B#5
    ∧ romRead 0xDE#8 = 0x0C#5 ∧ romRead 0xEE#8 = 0x0D#5 ∧ romRead 0xED#8 = 0x0E#5
    ∧ romRead 0xEB#8 = 0x0F#5
    ∧ ∀ a : RomAddr,
        a ∉ ([0xE7#8, 0x77#8, 0x7B#8, 0x7D#8, 0xB7#8, 0xBB#8, 0xBD#8, 0xD7#8,
          0xDB#8, 0xDD#8, 0x7E#8, 0xBE#8, 0xDE#8, 0xEE#8, 0xED#8, 0xEB#8] : List RomAddr) →
          romRead a = 0x10#5

/-- For every row line r and column line c, reading the ROM with row r alone low and column c alone
driven gives the code of the key the layout puts at (r, c), and the layout has sixteen different
codes. (R87, R75) -/
def Obligations.MatrixLayoutMatchesRom : Prop :=
  (∀ r c : Line, romRead (romAddr (colPattern r) (colPattern c)) = (keyAt r c).setWidth 5)
    ∧ ∀ r c r' c' : Line, keyAt r c = keyAt r' c' → r = r' ∧ c = c'

/-- For all column patterns p and row readings rb: the decode is a hit if and only if both are one-low
patterns, the sixteen listed pairs; two hits with equal codes are the same pair; and every key
position drives exactly the table's code. (R126) -/
def Obligations.DecoderIsInjectiveOnHits : Prop :=
  (∀ p rb : Nibble, (romRead (romAddr rb p)).getLsbD 4 = false ↔ oneLow p = true ∧ oneLow rb = true)
    ∧ (∀ p rb p' rb' : Nibble, (romRead (romAddr rb p)).getLsbD 4 = false →
        romRead (romAddr rb p) = romRead (romAddr rb' p') → p = p' ∧ rb = rb')
    ∧ ∀ r c : Line, romRead (romAddr (colPattern r) (colPattern c)) = (keyAt r c).setWidth 5

/-- In every state the row of key n completes with n on the ROM's output and everything else unchanged,
and the miss row with 0x10 for every pair of its 240 addresses. That the data word stands in a field
of its own is the model's choice (log 5). (R125, R75, R77) -/
def Obligations.KeydecRowsRunInEveryState : Prop :=
  ∀ s : State,
    exec .keydecK0 s = .next { s with romOut := 0x00#5 }
    ∧ exec .keydecK1 s = .next { s with romOut := 0x01#5 }
    ∧ exec .keydecK2 s = .next { s with romOut := 0x02#5 }
    ∧ exec .keydecK3 s = .next { s with romOut := 0x03#5 }
    ∧ exec .keydecK4 s = .next { s with romOut := 0x04#5 }
    ∧ exec .keydecK5 s = .next { s with romOut := 0x05#5 }
    ∧ exec .keydecK6 s = .next { s with romOut := 0x06#5 }
    ∧ exec .keydecK7 s = .next { s with romOut := 0x07#5 }
    ∧ exec .keydecK8 s = .next { s with romOut := 0x08#5 }
    ∧ exec .keydecK9 s = .next { s with romOut := 0x09#5 }
    ∧ exec .keydecK10 s = .next { s with romOut := 0x0A#5 }
    ∧ exec .keydecK11 s = .next { s with romOut := 0x0B#5 }
    ∧ exec .keydecK12 s = .next { s with romOut := 0x0C#5 }
    ∧ exec .keydecK13 s = .next { s with romOut := 0x0D#5 }
    ∧ exec .keydecK14 s = .next { s with romOut := 0x0E#5 }
    ∧ exec .keydecK15 s = .next { s with romOut := 0x0F#5 }
    ∧ ∀ rows cols : Nibble, Instr.wf (.keydecMiss rows cols) = true →
        exec (.keydecMiss rows cols) s = .next { s with romOut := 0x10#5 }

/-- Without a pulse on invoke_i exec of S_IDLE changes nothing; with one it appends INVOKE and goes to
S_DIS, the pulse used up and nothing else changed. With rst low, an idle block serves the host's
command, and an invoke_i pulse while HS is not S_IDLE changes nothing and is no event. The sequencer
forms no word while idle. That S_IDLE without a pulse is an instruction that completes and changes
nothing, and that the pulse is a field that INVOKE uses up, is the model's choice (log 16): R150 has
the block wait. (R150) -/
def Obligations.SIdleWaitsForInvoke : Prop :=
  (∀ s : State, s.invokeI = false → exec .sIdle s = .next s)
    ∧ (∀ s : State, s.invokeI = true → exec .sIdle s = .next
        { s with hs := .sDis, invokeI := false, trace := s.trace ++ [Event.invoke] })
    ∧ (∀ (s : State) rest, s.rst = false → s.hs ≠ .sIdle → s.inputs = .invoke :: rest →
        step s = .next { s.settlePins with inputs := rest })
    ∧ (∀ (s : State) (w : CmdWord) rest, s.rst = false → s.hs = .sIdle → s.inputs = .hcmd w :: rest →
        step s = exec (decodeCmd w) { s.settlePins with inputs := rest })
    ∧ ∀ s : State, s.hs = .sIdle → sequencerWord s = none

/-- In every state exec of S_DIS completes with bit CH of IER cleared, the other bits and ISR kept, the
event IDIS(CH_MASK) appended and HS = S_CHK, nothing else changed; IE and irq_o are then 0; the
command word is 0x400 OR CH_MASK. (R151) -/
def Obligations.SDisDisables : Prop :=
  ∀ s : State, s.cfg.wf = true →
    ∃ t, exec .sDis s = .next t ∧ t.ie = false ∧ t.irq = false
      ∧ t = { s with
                ier := s.ier &&& ~~~chMask s.cfg, hs := .sChk
                trace := s.trace ++ [Event.op .sequencer (.idis (chMask s.cfg))] }
      ∧ (s.hs = .sDis → sequencerWord s = some (0x400#11 ||| (chMask s.cfg).setWidth 11))

/-- When bit CH of ISR is set, exec of S_CHK appends ISTAT -> ISR, sets P = 1110, K = 0, RES = 0x10 and
goes to S_COL; when it is not, it appends ISTAT -> ISR and RETURN(early), pulses ret_o and goes to
S_IDLE, and writes nothing else: no re-enable. The command word is 0x300. (R152) -/
def Obligations.SChkConfirmsOrReturnsEarly : Prop :=
  ∀ s : State, s.cfg.wf = true →
    (s.isr.getLsbD s.cfg.ch = true → exec .sChk s = .next
      { s with
        p := 0b1110#4, k := 0#2, res := 0x10#5, hs := .sCol
        trace := s.trace ++ [Event.op .sequencer (.istat s.isr)] })
    ∧ (s.isr.getLsbD s.cfg.ch = false → exec .sChk s = .next
      { s with
        hs := .sIdle, ret := true
        trace := s.trace ++ [Event.op .sequencer (.istat s.isr), .ret .early] })
    ∧ (s.hs = .sChk → sequencerWord s = some 0x300#11)

/-- In every state exec of S_COL completes with COL = P, the event WRCOL(P) and HS = S_RD, nothing else
changed; the command word is P with op 0. (R153) -/
def Obligations.SColDrivesThePattern : Prop :=
  ∀ s : State, exec .sCol s = .next
      { s with col := s.p, hs := .sRd, trace := s.trace ++ [Event.op .sequencer (.wrcol s.p)] }
    ∧ (s.hs = .sCol → sequencerWord s = some (s.p.setWidth 11))

/-- With d the ROM word at the sampled rows above P: exec of S_RD sets RES = d, appends RDCMB -> rows ++
COL and, on a hit or on a miss with K = 3, goes to S_OUT with K and P kept; on another miss it
increments K, rotates P and goes to S_COL. The oracle moves on (log 3) and nothing else changes, but
that the ROM's output, a field that is the model's choice, shows d (log 5). The command word is
0x100. (R154) -/
def Obligations.SRdReadsDecodesAndDecides : Prop :=
  ∀ s : State,
    let d := romRead (romAddr (rowSample s) s.p)
    let u := { s with
      rows := (consumeRow s).rows, free := (consumeRow s).free, res := d, romOut := d
      trace := s.trace ++ [Event.op .sequencer (.rdcmb (rowSample s ++ s.col))] }
    (d.getLsbD 4 = false → exec .sRd s = .next { u with hs := .sOut })
    ∧ (d.getLsbD 4 = true → s.k = 3#2 → exec .sRd s = .next { u with hs := .sOut })
    ∧ (d.getLsbD 4 = true → s.k ≠ 3#2 → exec .sRd s = .next
        { u with hs := .sCol, k := s.k + 1#2, p := (s.p <<< 1) ||| (s.p >>> 3) })
    ∧ (s.hs = .sRd → sequencerWord s = some 0x100#11)

/-- With w = RES when RES[4] = 0 and NOKEY_OUT otherwise, exec of S_OUT completes in every state with
OUT = w, OUTV = 1, one pulse on out_we_o, the event WROUT(w) and HS = S_CLR, nothing else changed;
with RES = 0x10 and the default NOKEY_OUT, w = RES; the command word is 0x200 OR w. (R155) -/
def Obligations.SOutWritesTheResult : Prop :=
  ∀ s : State,
    let w := if s.res.getLsbD 4 = false then s.res else s.cfg.nokeyOut
    exec .sOut s = .next
      { s with
        out := w, outv := true, outWe := true, hs := .sClr
        trace := s.trace ++ [Event.op .sequencer (.wrout w)] }
    ∧ (s.res.getLsbD 4 = true → s.res = 0x10#5 → s.cfg.nokeyOut = 0x10#5 → w = s.res)
    ∧ (s.hs = .sOut → sequencerWord s = some (0x200#11 ||| w.setWidth 11))

/-- In every state exec of S_CLR completes with bit CH of ISR cleared, the other bits and IER kept, the
event ICLR(CH_MASK) and HS = S_EN, nothing else changed; IS is then 0; the command word is 0x500 OR
CH_MASK. (R156) -/
def Obligations.SClrClearsTheFlag : Prop :=
  ∀ s : State, s.cfg.wf = true →
    ∃ t, exec .sClr s = .next t ∧ t.is = false
      ∧ t = { s with
                isr := s.isr &&& ~~~chMask s.cfg, hs := .sEn
                trace := s.trace ++ [Event.op .sequencer (.iclr (chMask s.cfg))] }
      ∧ (s.hs = .sClr → sequencerWord s = some (0x500#11 ||| (chMask s.cfg).setWidth 11))

/-- In every state exec of S_EN completes with bit CH of IER set, the other bits and ISR kept, the
events IEN(CH_MASK) and RETURN(normal), one pulse on ret_o and HS = S_IDLE, nothing else changed;
the block is then Armed and irq_o equals IS; the command word is 0x600 OR CH_MASK. (R157) -/
def Obligations.SEnEnablesAndReturns : Prop :=
  ∀ s : State, s.cfg.wf = true →
    ∃ t, exec .sEn s = .next t ∧ t.armed = true ∧ t.irq = s.is
      ∧ t = { s with
                ier := s.ier ||| chMask s.cfg, hs := .sIdle, ret := true
                trace := s.trace ++ [Event.op .sequencer (.ien (chMask s.cfg)), .ret .normal] }
      ∧ (s.hs = .sEn → sequencerWord s = some (0x600#11 ||| (chMask s.cfg).setWidth 11))

/-- In every state of a well-formed configuration in which the sequencer forms a word, exec of what the
word decodes to and exec of the state's own step both complete, agree on COL, OUT, OUTV, IER, ISR,
the row oracle and the free-value counter, and the step's trace begins with the operation's. (R80,
R108, R159) -/
def Obligations.SequencerStepPerformsItsWord : Prop :=
  ∀ (s : State) (w : CmdWord), s.cfg.wf = true → sequencerWord s = some w →
    ∃ u t : State, exec (decodeCmd w) s = .next u ∧ exec (stateInstr s.hs) s = .next t
      ∧ t.col = u.col ∧ t.out = u.out ∧ t.outv = u.outv ∧ t.ier = u.ier ∧ t.isr = u.isr
      ∧ t.rows = u.rows ∧ t.free = u.free ∧ t.outWe = u.outWe ∧ t.hrdata = u.hrdata
      ∧ u.trace <+: t.trace

/-- For every 4-bit value, bit 0 of rotl4 is bit 3 and bit i+1 is bit i; four rotations are the
identity; started at 1110 the patterns are 1110, 1101, 1011, 0111, and these drive column lines 0 to
3. (R121, R123) -/
def Obligations.ColumnPatternsRotate : Prop :=
  (∀ v : Nibble, rotl4 v = v.extractLsb' 0 3 ++ v.extractLsb' 3 1)
    ∧ (∀ v : Nibble, rotl4 (rotl4 (rotl4 (rotl4 v))) = v)
    ∧ [0, 1, 2, 3].map (fun k => rotl4Iter k 0b1110#4) = [0b1110#4, 0b1101#4, 0b1011#4, 0b0111#4]
    ∧ ∀ c : Line, rotl4Iter c.val 0b1110#4 = colPattern c

/-- With ROWS_ENV = KEYPAD, in every state: bit r of the row sample is 0 if and only if there is a
column line c with (r, c) held and COL[c] = 0, and the sample uses up nothing; with no key held it
is 1111; with exactly (r, c) held it is 1111 with bit r cleared while COL[c] = 0, and 1111
otherwise. (R184) -/
def Obligations.NominalKeypadRows : Prop :=
  ∀ s : State, s.cfg.rowsEnv = .keypad →
    (∀ r : Line, (rowSample s).getLsbD r.val = false ↔
      ∃ c : Line, keyHeld s.held r c = true ∧ s.col.getLsbD c.val = false)
    ∧ consumeRow s = s
    ∧ ((∀ r c : Line, keyHeld s.held r c = false) → rowSample s = 0b1111#4)
    ∧ ∀ r c : Line, s.OnlyKeyHeld r c →
        rowSample s = if s.col.getLsbD c.val = false then colPattern r else 0b1111#4

/-- With ROWS_ENV = FREE and a listed sample r, the row sample is r and one element is used up, nothing
else changing. (With none listed the sample is a free value, log 3.) (R183) -/
def Obligations.RowOracleGivesOneElementPerRead : Prop :=
  ∀ (s : State) (r : Nibble) (rest : List Nibble), s.cfg.rowsEnv = .free → s.rows = r :: rest →
    rowSample s = r ∧ consumeRow s = { s with rows := rest }

/-- With rst low and EDGE(m) next, for a mask m of MASK_W bits that is not zero: the step sets those
bits of ISR, appends the event and changes nothing else but the pins that come to rest and the list
of acts, whatever IER and HS hold. That the one-step pins come to rest (log 12) and that the act
leaves the list (log 2) are the model's; a mask of no channel is left out (log 11). (R180) -/
def Obligations.EdgeLatchesStatus : Prop :=
  ∀ (s : State) (m : Mask) (rest : List Input), s.rst = false → s.inputs = .edge m :: rest →
    m &&& maskBits s.cfg = m → m ≠ 0#8 →
      step s = .next { s.settlePins with
        inputs := rest, isr := s.isr ||| m, trace := s.trace ++ [Event.edge m] }

/-- With rst low, INVOKE next and HS = S_IDLE: under FREE, and under GATED when IE and IS are both 1,
the step goes to S_DIS and appends INVOKE, nothing else changing but the pins at rest and the list
of acts; under GATED otherwise there is no transition (the refusal invokeNotEnabled). While HS is
not S_IDLE no INVOKE happens: the pulse changes nothing. That an INVOKE not enabled is a refusal is
the model's reading of R181 (log 10). That the one-step pins come to rest (log 12) and the act
leaves the list (log 2) are the model's. (R181) -/
def Obligations.InvokeEntersTheHandler : Prop :=
  ∀ (s : State) (rest : List Input), s.rst = false → s.inputs = .invoke :: rest →
    (s.hs = .sIdle → (s.cfg.invokePolicy = .free ∨ (s.ie = true ∧ s.is = true)) →
      step s = .next { s.settlePins with
        inputs := rest, hs := .sDis, trace := s.trace ++ [Event.invoke] })
    ∧ (s.hs = .sIdle → s.cfg.invokePolicy = .gated → ¬(s.ie = true ∧ s.is = true) →
        step s = .refused .invokeNotEnabled)
    ∧ (s.hs ≠ .sIdle → step s = .next { s.settlePins with inputs := rest })

/-- With ROWS_ENV = KEYPAD and a key event next, in every state: the step changes the held keys at that
position only, appends one event and changes nothing else but the pins at rest and the list of acts.
Under FREE the event has no transition. That this is a refusal is the model's reading of R185 (log
10), and that key events act while rst is high is the model's reading of R241 and R243 (log 13).
That the one-step pins come to rest (log 12) and the act leaves the list (log 2) are the model's.
(R185) -/
def Obligations.KeyEventsChangeOnlyTheKeys : Prop :=
  ∀ (s : State) (r c : Line) (down : Bool) (rest : List Input),
    s.inputs = (if down then Input.keyDown r c else Input.keyUp r c) :: rest →
    (s.cfg.rowsEnv = .keypad → ∃ t : State, step s = .next t
      ∧ (∀ r' c' : Line, keyHeld t.held r' c' =
          if r' = r ∧ c' = c then down else keyHeld s.held r' c')
      ∧ t = { s.settlePins with
                inputs := rest, held := t.held
                trace := s.trace ++ [if down then Event.keyDown r c else Event.keyUp r c] })
    ∧ (s.cfg.rowsEnv = .free → step s = .refused .keyEventWithoutKeypad)

/-- With H_RDOUT next, in every state of HS: the step appends one H_RDOUT event with some 5-bit value v,
which is OUT when OUTV = 1; nothing else changes but the pins at rest, the list of acts and, when
OUTV = 0, the free-value counter. The model's own: that H_RDOUT acts while rst is high too (log 13),
and the counter that gives each read before the first write its free value (log 4). That the one-
step pins come to rest (log 12) and the act leaves the list (log 2) are the model's. (R193) -/
def Obligations.HostReadsOutputAnyTime : Prop :=
  ∀ (s : State) (rest : List Input), s.inputs = .hRdout :: rest →
    ∃ v : OutWord, (s.outv = true → v = s.out)
      ∧ step s = .next { s.settlePins with
          inputs := rest, free := if s.outv then s.free else s.free + 1
          trace := s.trace ++ [Event.hRdout v] }

/-- With rst sampled high next, in every state: the step sets HS = S_IDLE, IER = 0, ISR = 0, COL = 1111,
OUTV = 0, K = 0, P = 1110, RES = 0x10 and the trace to the one event RESET, gives no ret_o and no
out_we_o pulse, and keeps the held keys, the row oracle, the remaining acts and the configuration.
The held keys and the row oracle are the environment's, which R243 says is not reset (log 19); that
the configuration (log 1) and the remaining acts (log 2) are kept is the model's, as are the one-
step pins at rest (log 12). (R240, R243) -/
def Obligations.ResetFromAnyState : Prop :=
  ∀ (s : State) (rest : List Input), s.inputs = .rst true :: rest →
    ∃ t : State, step s = .next t
      ∧ t.hs = .sIdle ∧ t.ier = 0#8 ∧ t.isr = 0#8 ∧ t.col = 0b1111#4 ∧ t.outv = false
      ∧ t.k = 0#2 ∧ t.p = 0b1110#4 ∧ t.res = 0x10#5 ∧ t.trace = [.reset]
      ∧ t.ret = false ∧ t.outWe = false
      ∧ t.held = s.held ∧ t.rows = s.rows ∧ t.inputs = rest ∧ t.cfg = s.cfg

/-- With rst high and the sequencer, EDGE, invoke_i or a host command next, or nothing next, the step
changes nothing but the pins at rest and the list of acts and appends no event; sampled high again
the block is in the reset state again; sampled low, rst falls and the rest stays. That the empty
list is the sequencer's turn is the model's (log 2). That the one-step pins come to rest (log 12)
and the act leaves the list (log 2) are the model's. (R241) -/
def Obligations.ResetHeldIgnoresInputs : Prop :=
  ∀ s : State, s.rst = true →
    (s.inputs = [] → step s = .next s.settlePins)
    ∧ (∀ (i : Input) rest, s.inputs = i :: rest →
        (i = .seq ∨ i = .invoke ∨ (∃ m, i = .edge m) ∨ (∃ w, i = .hcmd w)) →
          step s = .next { s.settlePins with inputs := rest })
    ∧ (∀ rest, s.inputs = .rst true :: rest → ∃ t : State, step s = .next t
        ∧ t.rst = true ∧ t.hs = .sIdle ∧ t.ier = 0#8 ∧ t.isr = 0#8 ∧ t.col = 0b1111#4
        ∧ t.outv = false ∧ t.k = 0#2 ∧ t.p = 0b1110#4 ∧ t.res = 0x10#5 ∧ t.trace = [.reset])
    ∧ ∀ rest, s.inputs = .rst false :: rest →
        step s = .next { s.settlePins with inputs := rest, rst := false }

/-- State.reset has HS = S_IDLE, IER and ISR all zeros, COL = 1111, OUTV = 0, K = 0, P = 1110, RES =
0x10 and the trace with the single event RESET. (OUT is unspecified: nothing is said of it.) (R36) -/
def Obligations.ResetStateIsTheSpecs : Prop :=
  State.reset.hs = .sIdle ∧ State.reset.ier = 0#8 ∧ State.reset.isr = 0#8
    ∧ State.reset.col = 0b1111#4 ∧ State.reset.outv = false ∧ State.reset.k = 0#2
    ∧ State.reset.p = 0b1110#4 ∧ State.reset.res = 0x10#5 ∧ State.reset.trace = [.reset]

/-- At State.reset col_o = 1111, out_we_o = 0, irq_o = 0, ret_o = 0, busy_o = 0, and the predicate Dead
holds. (R242, R40) -/
def Obligations.PinsAfterReset : Prop :=
  State.reset.colO = 0b1111#4 ∧ State.reset.outWe = false ∧ State.reset.irq = false
    ∧ State.reset.ret = false ∧ State.reset.busy = false ∧ State.reset.dead = true

/-- From every idle state with rst low, of a well-formed configuration, with the four commands of the
boot duties next: four steps complete; the block is Armed, IS = 0, COL and OUT hold the values
given, OUTV = 1, the other channels' bits of IER and ISR are as before, and the remaining acts are
next. (R244) -/
def Obligations.BootDutiesArmTheBlock : Prop :=
  ∀ (s : State) (p : Nibble) (w : OutWord) (rest : List Input),
    s.cfg.wf = true → s.rst = false → s.hs = .sIdle →
    s.inputs = bootDuties s.cfg p w ++ rest →
    ∃ t : State, Host.Core.run Sys2Proof.core 4 s = .next t
      ∧ t.armed = true ∧ t.is = false ∧ t.irq = false ∧ t.col = p ∧ t.out = w ∧ t.outv = true
      ∧ t.ier = s.ier ||| chMask s.cfg ∧ t.isr = s.isr &&& ~~~chMask s.cfg ∧ t.inputs = rest
      ∧ t.k = s.k ∧ t.p = s.p ∧ t.res = s.res

/-- State.reset satisfies the invariant, its trace follows the protocol, and GATED's guarantee holds
there. (R36, R161) -/
def Obligations.InvariantAtReset : Prop :=
  State.reset.Inv ∧ State.reset.TraceLegal ∧ State.reset.GatedPending

/-- From every state with the invariant (masks within MASK_W; IE = 0 from the end of S_DIS to the end of
S_EN; RES a code or 0x10; during a sweep P = rotl4^K(1110) and COL = P once written; at its end a
miss only at K = 3; the latch holding the result before the clear), if the step answers a next
state, that state has it, whatever any agent does. (R161, R28, R29, R24, R25, R131) -/
def Obligations.StepKeepsInvariant : Prop :=
  ∀ s t : State, s.Inv → step s = .next t → t.Inv

/-- If the trace is a legal prefix that stands where the sequencer stands and the invariant holds, then
so it is after every step: each invocation is INVOKE, IDIS(CH_MASK), ISTAT, then RETURN(early)
alone, or the pairs WRCOL(cK), RDCMB in column order up to the first hit or the fourth miss, one
WROUT of the result, one ICLR, one IEN, RETURN(normal); no INVOKE and no host command falls inside.
(R162, R163, R213, R159, R211) -/
def Obligations.StepKeepsTraceProtocol : Prop :=
  ∀ s t : State, s.Inv → s.TraceLegal → step s = .next t → t.TraceLegal

/-- For a well-formed configuration under GATED: that ISR[CH] = 1 whenever HS is S_DIS or S_CHK is kept
by every step, and in a state with it S_CHK never goes to S_IDLE. (R167) -/
def Obligations.StepKeepsGatedPending : Prop :=
  (∀ s t : State, s.cfg.wf = true → s.GatedPending → step s = .next t → t.GatedPending)
    ∧ ∀ s t : State, s.cfg.wf = true → s.cfg.invokePolicy = .gated → s.hs = .sChk → s.GatedPending →
        exec .sChk s = .next t → t.hs = .sCol

/-- If the step answers a next state, its configuration is the old one. That the record is carried in
State is the model's choice (log 1). (R9, R240) -/
def Obligations.ConfigIsNeverWritten : Prop :=
  ∀ s t : State, step s = .next t → t.cfg = s.cfg

/-- With rst low, HS not S_IDLE and no reset next: if a step changes IER then it is the sequencer's, and
HS was S_DIS and bit CH was cleared, or HS was S_EN and bit CH was set. (R31) -/
def Obligations.EnableBitWrittenOnlyAtEntryAndExit : Prop :=
  ∀ s t : State, s.rst = false → s.hs ≠ .sIdle → (∀ rest, s.inputs ≠ .rst true :: rest) →
    step s = .next t → t.ier ≠ s.ier →
      s.sequencerNext
      ∧ ((s.hs = .sDis ∧ t.ier = s.ier &&& ~~~chMask s.cfg)
        ∨ (s.hs = .sEn ∧ t.ier = s.ier ||| chMask s.cfg))

/-- In a well-formed configuration, if a step takes bit CH of ISR from 1 to 0, then the step was the
sequencer's in S_CLR, or a host command with op 5 that names the channel while idle, or a reset.
(R205) -/
def Obligations.StatusBitClearedOnlyByClear : Prop :=
  ∀ s t : State, s.cfg.wf = true → step s = .next t → s.is = true → t.is = false →
    (s.hs = .sClr ∧ s.sequencerNext)
    ∨ (∃ (w : CmdWord) (rest : List Input), s.inputs = .hcmd w :: rest ∧ s.rst = false
        ∧ s.hs = .sIdle ∧ CmdWord.op w = 5#3 ∧ (CmdWord.arg w).getLsbD s.cfg.ch = true)
    ∨ ∃ rest, s.inputs = .rst true :: rest

/-- In a well-formed configuration, a step of the sequencer keeps every bit of IER and ISR other than
bit CH. (R206, R24) -/
def Obligations.OtherChannelsUntouchedInHandler : Prop :=
  ∀ (s t : State) (i : Nat), s.cfg.wf = true → s.sequencerNext → step s = .next t →
    i ≠ s.cfg.ch → t.ier.getLsbD i = s.ier.getLsbD i ∧ t.isr.getLsbD i = s.isr.getLsbD i

/-- Under GATED, in the predicate Dead: irq_o is 0 whatever IS; and a step whose act is neither a host
command nor a sample of rst leaves the block Dead. (R160) -/
def Obligations.DeadStateIsStuckUnderGated : Prop :=
  ∀ s : State, s.cfg.invokePolicy = .gated → s.dead = true →
    s.irq = false
    ∧ ∀ t : State, (∀ w rest, s.inputs ≠ .hcmd w :: rest) → (∀ b rest, s.inputs ≠ .rst b :: rest) →
        step s = .next t → t.dead = true

/-- With rst low, HS = S_EN and EDGE(CH_MASK) then the sequencer's turn next, in a well-formed
configuration: two steps complete, the block is idle with RETURN(normal) emitted last, irq_o = 1 and
an INVOKE is enabled under either policy. When that INVOKE comes next and then no act of another
agent, some number of steps, one of 10, 12, 14 and 16 in all, completes a second invocation: the
trace goes on with INVOKE after the RETURN, the flag is cleared, the output is written and the block
is Armed. (R254, R181) -/
def Obligations.EdgeBeforeEnableIsServedLater : Prop :=
  ∀ (s : State) (rest : List Input), s.cfg.wf = true → s.rst = false → s.hs = .sEn →
    s.inputs = .edge (chMask s.cfg) :: .seq :: rest →
    let served := s.trace
      ++ [Event.edge (chMask s.cfg), .op .sequencer (.ien (chMask s.cfg)), .ret .normal]
    (∃ t : State, Host.Core.run Sys2Proof.core 2 s = .next t ∧ t.hs = .sIdle ∧ t.irq = true
      ∧ t.invokeEnabled = true ∧ t.trace = served ∧ t.inputs = rest)
    ∧ (rest = [.invoke] → ∃ n ∈ [10, 12, 14, 16], ∃ u : State,
        Host.Core.run Sys2Proof.core n s = .next u ∧ served ++ [Event.invoke] <+: u.trace
          ∧ u.is = false ∧ u.outv = true ∧ u.armed = true)

/-- If OUTV = 0, replacing the stored OUT by any value leaves the pins out_o as they are, and gives a
step with the same outcome: the same refusal, or a next state that differs at most in OUT, and not
at all once OUTV = 1. That a value is stored at all before the first write, and hidden, is the
model's choice (log 4). (R23, R36) -/
def Obligations.OutLatchHasNoMeaningBeforeWrite : Prop :=
  ∀ (s : State) (v : OutWord), s.outv = false →
    State.outO { s with out := v } = s.outO
    ∧ (∀ t : State, step s = .next t → ∃ o : OutWord,
      step { s with out := v } = .next { t with out := o } ∧ (t.outv = true → o = t.out))
    ∧ ∀ r : Refusal, step s = .refused r → step { s with out := v } = .refused r

/-- Under ROWS_ENV = FREE with at least four samples listed: SCAN ends with RES the code of the first
reading that is a hit, or 0x10 when none is; it tries one column more than the step of that hit, or
four; K, P and COL stay at the last column tried; only those samples are used up; IER, ISR and OUT
are untouched. That SCAN is a function beside the machine is the model's (log 21).
KeypadSweepReportsFirstSoleKey says the same under KEYPAD. (R128, R129, R130, R131) -/
def Obligations.SweepIsFirstMatch : Prop :=
  ∀ (s : State) (rb0 rb1 rb2 rb3 : Nibble) (rest : List Nibble),
    s.cfg.rowsEnv = .free → s.rows = rb0 :: rb1 :: rb2 :: rb3 :: rest →
    let n := sweepLength rb0 rb1 rb2
    let t := scan s
    t.res = (match sweepResult rb0 rb1 rb2 rb3 with
      | some code => code.setWidth 5
      | none => 0x10#5)
    ∧ t.k = BitVec.ofNat 2 (n - 1) ∧ t.p = rotl4Iter (n - 1) 0b1110#4 ∧ t.col = t.p
    ∧ t.rows = s.rows.drop n
    ∧ t.trace.length = s.trace.length + 2 * n
    ∧ t.ier = s.ier ∧ t.isr = s.isr ∧ t.out = s.out ∧ t.outv = s.outv ∧ t.hs = s.hs

/-- From every state with rst low, HS = S_DIS and no act of another agent listed: some number of steps,
one of 2, 7, 9, 11 and 13, leads to exactly the state the composite HANDLER gives. That HANDLER is a
function beside the machine is the model's (log 21). (R158, R86, R164) -/
def Obligations.InvocationRefinesHandler : Prop :=
  ∀ s : State, s.rst = false → s.hs = .sDis → s.inputs = [] →
    ∃ n ∈ [2, 7, 9, 11, 13], Host.Core.run Sys2Proof.core n s = .next (handler s)

/-- In every state that meets the invariant, with rst low, HS not S_IDLE and no act of another agent
listed, there is n of at most 13 such that n steps complete and HS = S_IDLE. (R164, R133) -/
def Obligations.HandlerRunsToCompletion : Prop :=
  ∀ s : State, s.Inv → s.rst = false → s.hs ≠ .sIdle → s.inputs = [] →
    ∃ n t, n ≤ 13 ∧ Host.Core.run Sys2Proof.core n s = .next t ∧ t.hs = .sIdle

/-- Under the nominal keypad with exactly the key (r, c) held, in a well-formed configuration, with rst
low, HS = S_DIS, IS = 1 and no act of another agent listed: 7 + 2c steps complete; OUT is the code
of that key with OUTV = 1, the columns stay at cK of that key's column, the block is Armed and IS =
0, and the other channels' bits of IER and ISR are as before. (R87, R129, R134, R155, R163, R184) -/
def Obligations.SingleHeldKeyIsReported : Prop :=
  ∀ (s : State) (r c : Line), s.cfg.wf = true → s.cfg.rowsEnv = .keypad → s.OnlyKeyHeld r c →
    s.rst = false → s.hs = .sDis → s.is = true → s.inputs = [] →
    ∃ t : State, Host.Core.run Sys2Proof.core (7 + 2 * c.val) s = .next t
      ∧ t.out = (keyAt r c).setWidth 5 ∧ t.outv = true ∧ t.col = colPattern c
      ∧ t.armed = true ∧ t.is = false
      ∧ t.ier = s.ier ||| chMask s.cfg ∧ t.isr = s.isr &&& ~~~chMask s.cfg

/-- Under the nominal keypad with no key held, in a well-formed configuration, with rst low, HS = S_DIS,
IS = 1 and no act of another agent listed: 13 steps complete; OUT = NOKEY_OUT with OUTV = 1, RES =
0x10, the columns stay at 0111, the block is Armed and IS = 0. (R130, R155, R258) -/
def Obligations.NoKeyHeldWritesNoKeyValue : Prop :=
  ∀ s : State, s.cfg.wf = true → s.cfg.rowsEnv = .keypad →
    (∀ r c : Line, keyHeld s.held r c = false) →
    s.rst = false → s.hs = .sDis → s.is = true → s.inputs = [] →
    ∃ t : State, Host.Core.run Sys2Proof.core 13 s = .next t
      ∧ t.out = s.cfg.nokeyOut ∧ t.outv = true ∧ t.res = 0x10#5 ∧ t.col = 0b0111#4
      ∧ t.armed = true ∧ t.is = false

/-- From every idle state with rst low, under FREE, with INVOKE next and then nothing of another agent,
IS = 0, in a well-formed configuration: three steps complete; the trace gains exactly INVOKE,
IDIS(CH_MASK), ISTAT -> ISR, RETURN(early); IER has bit CH cleared; ret_o pulses; and no other
register, nor the environment, changes: the block is Dead. (R162, R152, R160) -/
def Obligations.SpuriousInvocationLeavesOnlyDisable : Prop :=
  ∀ s : State, s.cfg.wf = true → s.cfg.invokePolicy = .free → s.rst = false → s.hs = .sIdle →
    s.is = false → s.inputs = [.invoke] →
    ∃ t : State, Host.Core.run Sys2Proof.core 3 s = .next t ∧ t.dead = true
      ∧ t = { s.settlePins with
                inputs := [], ier := s.ier &&& ~~~chMask s.cfg, ret := true
                trace := s.trace ++ [Event.invoke, .op .sequencer (.idis (chMask s.cfg)),
                  .op .sequencer (.istat s.isr), .ret .early] }

/-- If a step answers a next state and rst is not sampled high next, the new trace is the old one
followed by at most two events, of which at most one is a performed operation. (R35, R109) -/
def Obligations.TraceOnlyGrowsButAtReset : Prop :=
  ∀ s t : State, (∀ rest, s.inputs ≠ .rst true :: rest) → step s = .next t →
    ∃ es : List Event, t.trace = s.trace ++ es ∧ es.length ≤ 2
      ∧ (es.filter Event.isOperation).length ≤ 1

/-- Under the nominal keypad with any set of keys held: when the key (r, c) is the only one held in its
column and no earlier column has exactly one key held, SCAN ends with RES its code, K = c, P and COL
the pattern of column c after c + 1 tries, and no later column is driven; when no column has exactly
one key held, it ends with RES = 0x10, K = 3 and the last column after four tries. IER, ISR, OUT and
the held keys are untouched. That SCAN is a function beside the machine is the model's (log 21).
(R128, R134, R129, R184) -/
def Obligations.KeypadSweepReportsFirstSoleKey : Prop :=
  ∀ s : State, s.cfg.rowsEnv = .keypad →
    (∀ r c : Line, s.SoleKeyOf r c → (∀ r' c' : Line, c' < c → ¬ s.SoleKeyOf r' c') →
      (scan s).res = (keyAt r c).setWidth 5 ∧ (scan s).k.toNat = c.val
        ∧ (scan s).p = colPattern c ∧ (scan s).col = colPattern c
        ∧ (scan s).trace.length = s.trace.length + 2 * (c.val + 1)
        ∧ ∀ c' : Line, c < c' → Event.op .sequencer (.wrcol (colPattern c'))
            ∉ (scan s).trace.drop s.trace.length)
    ∧ ((∀ r c : Line, ¬ s.SoleKeyOf r c) →
      (scan s).res = 0x10#5 ∧ (scan s).k = 3#2 ∧ (scan s).p = 0b0111#4 ∧ (scan s).col = 0b0111#4
        ∧ (scan s).trace.length = s.trace.length + 8)
    ∧ (scan s).ier = s.ier ∧ (scan s).isr = s.isr ∧ (scan s).out = s.out
    ∧ (scan s).outv = s.outv ∧ (scan s).held = s.held

/-- With HS one of S_IDLE, S_DIS and S_CHK, replacing K, P and RES by any values gives a step with the
same outcome: the same refusal, or a next state that differs at most in those three, whose HS is one
of the three states again or S_COL, and in S_COL it does not differ at all. S_CHK confirming gives
the same state whatever they hold, in every state. The values at reset can therefore not be
observed. (R36, R152) -/
def Obligations.SweepRegistersUnreadBeforeTheirWrite : Prop :=
  (∀ (s : State) (k : BitVec 2) (p : Nibble) (d : DecodeResult),
      (s.hs = .sIdle ∨ s.hs = .sDis ∨ s.hs = .sChk) →
      (∀ t : State, step s = .next t →
        (t.hs = .sIdle ∨ t.hs = .sDis ∨ t.hs = .sChk ∨ t.hs = .sCol)
        ∧ ∃ (k' : BitVec 2) (p' : Nibble) (d' : DecodeResult),
          step { s with k := k, p := p, res := d } = .next { t with k := k', p := p', res := d' }
            ∧ (t.hs = .sCol → k' = t.k ∧ p' = t.p ∧ d' = t.res))
      ∧ ∀ r : Refusal, step s = .refused r → step { s with k := k, p := p, res := d } = .refused r)
    ∧ ∀ (s : State) (k : BitVec 2) (p : Nibble) (d : DecodeResult),
        confirmFlag s.cfg s.isr = true → exec .sChk { s with k := k, p := p, res := d } = exec .sChk s

/-- Under the nominal keypad with any set of keys held, in a well-formed configuration, with rst low, HS
= S_DIS, IS = 1 and no act of another agent listed. When the key (r, c) is the only one held in its
column and no earlier column has exactly one: 7 + 2c steps complete and OUT is its code, the columns
staying at that column. When no column has exactly one key held: 13 steps complete, OUT = NOKEY_OUT
and the columns stay at 0111. Either way OUTV = 1, the block is Armed, IS = 0 and the other
channels' bits of IER and ISR are as before. (R134, R128, R129, R155, R163, R184) -/
def Obligations.InvocationWithSeveralKeysHeld : Prop :=
  ∀ s : State, s.cfg.wf = true → s.cfg.rowsEnv = .keypad → s.rst = false → s.hs = .sDis →
    s.is = true → s.inputs = [] →
    (∀ r c : Line, s.SoleKeyOf r c → (∀ r' c' : Line, c' < c → ¬ s.SoleKeyOf r' c') →
      ∃ t : State, Host.Core.run Sys2Proof.core (7 + 2 * c.val) s = .next t
        ∧ t.out = (keyAt r c).setWidth 5 ∧ t.outv = true ∧ t.col = colPattern c
        ∧ t.armed = true ∧ t.is = false
        ∧ t.ier = s.ier ||| chMask s.cfg ∧ t.isr = s.isr &&& ~~~chMask s.cfg)
    ∧ ((∀ r c : Line, ¬ s.SoleKeyOf r c) →
      ∃ t : State, Host.Core.run Sys2Proof.core 13 s = .next t
        ∧ t.out = s.cfg.nokeyOut ∧ t.outv = true ∧ t.col = 0b0111#4
        ∧ t.armed = true ∧ t.is = false
        ∧ t.ier = s.ier ||| chMask s.cfg ∧ t.isr = s.isr &&& ~~~chMask s.cfg)
end

