-- ==== Sys2Proof/Laws/Decode.lean ====
section
/-! SUPPORT. The decoders on words of their width, and the fields of a command word. -/

namespace Sys2Proof

@[simp] theorem HState.ofCode_code (h : HState) : HState.ofCode h.code = h := by
  cases h <;> rfl

@[simp] theorem HState.code_ofCode (c : BitVec 3) : (HState.ofCode c).code = c := by
  revert c
  decide

@[simp] theorem decodeState_code (h : HState) : decodeState h.code = stateInstr h := by
  simp [decodeState]

@[simp] theorem CmdWord.op_mk (op : BitVec 3) (arg : BitVec 8) :
    CmdWord.op (CmdWord.mk op arg) = op :=
  BitVec.extractLsb'_append_eq_left ..

@[simp] theorem CmdWord.arg_mk (op : BitVec 3) (arg : BitVec 8) :
    CmdWord.arg (CmdWord.mk op arg) = arg :=
  BitVec.extractLsb'_append_eq_right ..

theorem decode_cmd (w : CmdWord) : decode .cmd w.toNat = .ok (decodeCmd w) := by
  simp only [decode]
  rw [if_pos w.isLt, BitVec.ofNat_toNat, BitVec.setWidth_eq]

theorem decode_dr (a : RomAddr) : decode .dr a.toNat = .ok (decodeRom a) := by
  simp only [decode]
  rw [if_pos a.isLt, BitVec.ofNat_toNat, BitVec.setWidth_eq]

theorem decode_hs (c : BitVec 3) : decode .hs c.toNat = .ok (decodeState c) := by
  simp only [decode]
  rw [if_pos c.isLt, BitVec.ofNat_toNat, BitVec.setWidth_eq]

end Sys2Proof
end

