-- ==== Sys2Proof/Laws/Masks.lean ====
section
/-! SUPPORT. The bits of the masks. -/

namespace Sys2Proof.Machine

/-- What a well-formed configuration says of `MASK_W` and `CH`. -/
theorem Config.wf_bounds (c : Config) (h : c.wf = true) : c.ch < c.maskW ∧ c.maskW ≤ 8 := by
  simp only [Config.wf, Bool.and_eq_true, decide_eq_true_eq] at h
  omega

/-- `CH_MASK` has bit `CH` and no other. -/
theorem getLsbD_chMask (c : Config) (i : Nat) (h : i < 8) :
    (chMask c).getLsbD i = decide (i = c.ch) := by
  unfold chMask
  simp only [BitVec.getLsbD_shiftLeft, BitVec.getLsbD_one]
  by_cases hi : i = c.ch
  · subst hi; simp [h]
  · by_cases hlt : i < c.ch
    · simp [hlt, hi]
    · have : i - c.ch ≠ 0 := by omega
      simp [this, hi]

/-- The same bit by the indexing that `simp` prefers. -/
@[simp] theorem getElem_chMask (c : Config) (i : Nat) (h : i < 8) :
    (chMask c)[i] = decide (i = c.ch) := by
  rw [← BitVec.getLsbD_eq_getElem]
  exact getLsbD_chMask c i h

/-- A mask has exactly the bits below `MASK_W`. -/
theorem getLsbD_maskBits (c : Config) (i : Nat) (h : c.maskW ≤ 8) :
    (maskBits c).getLsbD i = decide (i < c.maskW) := by
  unfold maskBits
  simp only [BitVec.getLsbD_ushiftRight, BitVec.getLsbD_allOnes]
  congr 1
  simp only [eq_iff_iff]
  omega

/-- The confirmation flag is bit `CH` of the status word (R34, R152). -/
theorem confirmFlag_eq (c : Config) (t : Mask) (h : c.ch < 8) :
    confirmFlag c t = t.getLsbD c.ch := by
  unfold confirmFlag
  by_cases ht : t.getLsbD c.ch = true
  · rw [ht, bne_iff_ne]
    intro h0
    have := congrArg (fun v : BitVec 8 => v.getLsbD c.ch) h0
    simp [getLsbD_chMask c c.ch h, ht] at this
  · rw [Bool.not_eq_true] at ht
    rw [ht, bne_eq_false_iff_eq]
    apply BitVec.eq_of_getLsbD_eq
    intro i hi
    rw [BitVec.getLsbD_and, getLsbD_chMask c i hi]
    by_cases hc : i = c.ch
    · subst hc; simp [ht]
    · simp [hc]

end Sys2Proof.Machine
end

