-- ==== Sys2Proof/Laws/State.lean ====
section
/-! SUPPORT. One lemma per field per update of State, true by `rfl`. -/

namespace Sys2Proof.Machine

variable (s : State)

@[simp] theorem State.emit_col (e : Event) : (s.emit e).col = s.col := rfl
@[simp] theorem State.emit_out (e : Event) : (s.emit e).out = s.out := rfl
@[simp] theorem State.emit_outv (e : Event) : (s.emit e).outv = s.outv := rfl
@[simp] theorem State.emit_ier (e : Event) : (s.emit e).ier = s.ier := rfl
@[simp] theorem State.emit_isr (e : Event) : (s.emit e).isr = s.isr := rfl
@[simp] theorem State.emit_hs (e : Event) : (s.emit e).hs = s.hs := rfl
@[simp] theorem State.emit_k (e : Event) : (s.emit e).k = s.k := rfl
@[simp] theorem State.emit_p (e : Event) : (s.emit e).p = s.p := rfl
@[simp] theorem State.emit_res (e : Event) : (s.emit e).res = s.res := rfl
@[simp] theorem State.emit_trace (e : Event) : (s.emit e).trace = s.trace ++ [e] := rfl
@[simp] theorem State.emit_rst (e : Event) : (s.emit e).rst = s.rst := rfl
@[simp] theorem State.emit_invokeI (e : Event) : (s.emit e).invokeI = s.invokeI := rfl
@[simp] theorem State.emit_outWe (e : Event) : (s.emit e).outWe = s.outWe := rfl
@[simp] theorem State.emit_ret (e : Event) : (s.emit e).ret = s.ret := rfl
@[simp] theorem State.emit_hrdata (e : Event) : (s.emit e).hrdata = s.hrdata := rfl
@[simp] theorem State.emit_held (e : Event) : (s.emit e).held = s.held := rfl
@[simp] theorem State.emit_rows (e : Event) : (s.emit e).rows = s.rows := rfl
@[simp] theorem State.emit_cfg (e : Event) : (s.emit e).cfg = s.cfg := rfl
@[simp] theorem State.emit_inputs (e : Event) : (s.emit e).inputs = s.inputs := rfl
@[simp] theorem State.emit_romOut (e : Event) : (s.emit e).romOut = s.romOut := rfl
@[simp] theorem State.emit_free (e : Event) : (s.emit e).free = s.free := rfl

@[simp] theorem State.goto_col (h : HState) : (s.goto h).col = s.col := rfl
@[simp] theorem State.goto_out (h : HState) : (s.goto h).out = s.out := rfl
@[simp] theorem State.goto_outv (h : HState) : (s.goto h).outv = s.outv := rfl
@[simp] theorem State.goto_ier (h : HState) : (s.goto h).ier = s.ier := rfl
@[simp] theorem State.goto_isr (h : HState) : (s.goto h).isr = s.isr := rfl
@[simp] theorem State.goto_hs (h : HState) : (s.goto h).hs = h := rfl
@[simp] theorem State.goto_k (h : HState) : (s.goto h).k = s.k := rfl
@[simp] theorem State.goto_p (h : HState) : (s.goto h).p = s.p := rfl
@[simp] theorem State.goto_res (h : HState) : (s.goto h).res = s.res := rfl
@[simp] theorem State.goto_trace (h : HState) : (s.goto h).trace = s.trace := rfl
@[simp] theorem State.goto_rst (h : HState) : (s.goto h).rst = s.rst := rfl
@[simp] theorem State.goto_invokeI (h : HState) : (s.goto h).invokeI = s.invokeI := rfl
@[simp] theorem State.goto_outWe (h : HState) : (s.goto h).outWe = s.outWe := rfl
@[simp] theorem State.goto_ret (h : HState) : (s.goto h).ret = s.ret := rfl
@[simp] theorem State.goto_hrdata (h : HState) : (s.goto h).hrdata = s.hrdata := rfl
@[simp] theorem State.goto_held (h : HState) : (s.goto h).held = s.held := rfl
@[simp] theorem State.goto_rows (h : HState) : (s.goto h).rows = s.rows := rfl
@[simp] theorem State.goto_cfg (h : HState) : (s.goto h).cfg = s.cfg := rfl
@[simp] theorem State.goto_inputs (h : HState) : (s.goto h).inputs = s.inputs := rfl
@[simp] theorem State.goto_romOut (h : HState) : (s.goto h).romOut = s.romOut := rfl
@[simp] theorem State.goto_free (h : HState) : (s.goto h).free = s.free := rfl

@[simp] theorem State.settlePins_col : (s.settlePins).col = s.col := rfl
@[simp] theorem State.settlePins_out : (s.settlePins).out = s.out := rfl
@[simp] theorem State.settlePins_outv : (s.settlePins).outv = s.outv := rfl
@[simp] theorem State.settlePins_ier : (s.settlePins).ier = s.ier := rfl
@[simp] theorem State.settlePins_isr : (s.settlePins).isr = s.isr := rfl
@[simp] theorem State.settlePins_hs : (s.settlePins).hs = s.hs := rfl
@[simp] theorem State.settlePins_k : (s.settlePins).k = s.k := rfl
@[simp] theorem State.settlePins_p : (s.settlePins).p = s.p := rfl
@[simp] theorem State.settlePins_res : (s.settlePins).res = s.res := rfl
@[simp] theorem State.settlePins_trace : (s.settlePins).trace = s.trace := rfl
@[simp] theorem State.settlePins_rst : (s.settlePins).rst = s.rst := rfl
@[simp] theorem State.settlePins_invokeI : (s.settlePins).invokeI = false := rfl
@[simp] theorem State.settlePins_outWe : (s.settlePins).outWe = false := rfl
@[simp] theorem State.settlePins_ret : (s.settlePins).ret = false := rfl
@[simp] theorem State.settlePins_hrdata : (s.settlePins).hrdata = none := rfl
@[simp] theorem State.settlePins_held : (s.settlePins).held = s.held := rfl
@[simp] theorem State.settlePins_rows : (s.settlePins).rows = s.rows := rfl
@[simp] theorem State.settlePins_cfg : (s.settlePins).cfg = s.cfg := rfl
@[simp] theorem State.settlePins_inputs : (s.settlePins).inputs = s.inputs := rfl
@[simp] theorem State.settlePins_romOut : (s.settlePins).romOut = s.romOut := rfl
@[simp] theorem State.settlePins_free : (s.settlePins).free = s.free := rfl

@[simp] theorem opKeydec_col (a : RomAddr) : (opKeydec a s).col = s.col := rfl
@[simp] theorem opKeydec_out (a : RomAddr) : (opKeydec a s).out = s.out := rfl
@[simp] theorem opKeydec_outv (a : RomAddr) : (opKeydec a s).outv = s.outv := rfl
@[simp] theorem opKeydec_ier (a : RomAddr) : (opKeydec a s).ier = s.ier := rfl
@[simp] theorem opKeydec_isr (a : RomAddr) : (opKeydec a s).isr = s.isr := rfl
@[simp] theorem opKeydec_hs (a : RomAddr) : (opKeydec a s).hs = s.hs := rfl
@[simp] theorem opKeydec_k (a : RomAddr) : (opKeydec a s).k = s.k := rfl
@[simp] theorem opKeydec_p (a : RomAddr) : (opKeydec a s).p = s.p := rfl
@[simp] theorem opKeydec_res (a : RomAddr) : (opKeydec a s).res = s.res := rfl
@[simp] theorem opKeydec_trace (a : RomAddr) : (opKeydec a s).trace = s.trace := rfl
@[simp] theorem opKeydec_rst (a : RomAddr) : (opKeydec a s).rst = s.rst := rfl
@[simp] theorem opKeydec_invokeI (a : RomAddr) : (opKeydec a s).invokeI = s.invokeI := rfl
@[simp] theorem opKeydec_outWe (a : RomAddr) : (opKeydec a s).outWe = s.outWe := rfl
@[simp] theorem opKeydec_ret (a : RomAddr) : (opKeydec a s).ret = s.ret := rfl
@[simp] theorem opKeydec_hrdata (a : RomAddr) : (opKeydec a s).hrdata = s.hrdata := rfl
@[simp] theorem opKeydec_held (a : RomAddr) : (opKeydec a s).held = s.held := rfl
@[simp] theorem opKeydec_rows (a : RomAddr) : (opKeydec a s).rows = s.rows := rfl
@[simp] theorem opKeydec_cfg (a : RomAddr) : (opKeydec a s).cfg = s.cfg := rfl
@[simp] theorem opKeydec_inputs (a : RomAddr) : (opKeydec a s).inputs = s.inputs := rfl
@[simp] theorem opKeydec_romOut (a : RomAddr) : (opKeydec a s).romOut = romRead a := rfl
@[simp] theorem opKeydec_free (a : RomAddr) : (opKeydec a s).free = s.free := rfl

@[simp] theorem opColInit_col : (opColInit s).col = s.col := rfl
@[simp] theorem opColInit_out : (opColInit s).out = s.out := rfl
@[simp] theorem opColInit_outv : (opColInit s).outv = s.outv := rfl
@[simp] theorem opColInit_ier : (opColInit s).ier = s.ier := rfl
@[simp] theorem opColInit_isr : (opColInit s).isr = s.isr := rfl
@[simp] theorem opColInit_hs : (opColInit s).hs = s.hs := rfl
@[simp] theorem opColInit_k : (opColInit s).k = 0#2 := rfl
@[simp] theorem opColInit_p : (opColInit s).p = 0b1110#4 := rfl
@[simp] theorem opColInit_res : (opColInit s).res = 0x10#5 := rfl
@[simp] theorem opColInit_trace : (opColInit s).trace = s.trace := rfl
@[simp] theorem opColInit_rst : (opColInit s).rst = s.rst := rfl
@[simp] theorem opColInit_invokeI : (opColInit s).invokeI = s.invokeI := rfl
@[simp] theorem opColInit_outWe : (opColInit s).outWe = s.outWe := rfl
@[simp] theorem opColInit_ret : (opColInit s).ret = s.ret := rfl
@[simp] theorem opColInit_hrdata : (opColInit s).hrdata = s.hrdata := rfl
@[simp] theorem opColInit_held : (opColInit s).held = s.held := rfl
@[simp] theorem opColInit_rows : (opColInit s).rows = s.rows := rfl
@[simp] theorem opColInit_cfg : (opColInit s).cfg = s.cfg := rfl
@[simp] theorem opColInit_inputs : (opColInit s).inputs = s.inputs := rfl
@[simp] theorem opColInit_romOut : (opColInit s).romOut = s.romOut := rfl
@[simp] theorem opColInit_free : (opColInit s).free = s.free := rfl

@[simp] theorem opNextCol_col : (opNextCol s).col = s.col := rfl
@[simp] theorem opNextCol_out : (opNextCol s).out = s.out := rfl
@[simp] theorem opNextCol_outv : (opNextCol s).outv = s.outv := rfl
@[simp] theorem opNextCol_ier : (opNextCol s).ier = s.ier := rfl
@[simp] theorem opNextCol_isr : (opNextCol s).isr = s.isr := rfl
@[simp] theorem opNextCol_hs : (opNextCol s).hs = s.hs := rfl
@[simp] theorem opNextCol_k : (opNextCol s).k = s.k + 1#2 := rfl
@[simp] theorem opNextCol_p : (opNextCol s).p = rotl4 s.p := rfl
@[simp] theorem opNextCol_res : (opNextCol s).res = s.res := rfl
@[simp] theorem opNextCol_trace : (opNextCol s).trace = s.trace := rfl
@[simp] theorem opNextCol_rst : (opNextCol s).rst = s.rst := rfl
@[simp] theorem opNextCol_invokeI : (opNextCol s).invokeI = s.invokeI := rfl
@[simp] theorem opNextCol_outWe : (opNextCol s).outWe = s.outWe := rfl
@[simp] theorem opNextCol_ret : (opNextCol s).ret = s.ret := rfl
@[simp] theorem opNextCol_hrdata : (opNextCol s).hrdata = s.hrdata := rfl
@[simp] theorem opNextCol_held : (opNextCol s).held = s.held := rfl
@[simp] theorem opNextCol_rows : (opNextCol s).rows = s.rows := rfl
@[simp] theorem opNextCol_cfg : (opNextCol s).cfg = s.cfg := rfl
@[simp] theorem opNextCol_inputs : (opNextCol s).inputs = s.inputs := rfl
@[simp] theorem opNextCol_romOut : (opNextCol s).romOut = s.romOut := rfl
@[simp] theorem opNextCol_free : (opNextCol s).free = s.free := rfl

end Sys2Proof.Machine
end

