-- ==== Sys2Proof/Laws/Ops.lean ====
section
/-! SUPPORT. What each shared operation can do, once. -/

namespace Sys2Proof.Machine

variable (s : State)

theorem opWrcol_eq (who : Issuer) (p : Nibble) :
    opWrcol who p s = { s with col := p, trace := s.trace ++ [.op who (.wrcol p)] } := rfl

theorem opWrout_eq (who : Issuer) (w : OutWord) :
    opWrout who w s
      = { s with
          out := w, outv := true, outWe := true, trace := s.trace ++ [.op who (.wrout w)] } := rfl

theorem opIdis_eq (who : Issuer) (m : Mask) :
    opIdis who m s = { s with ier := s.ier &&& ~~~m, trace := s.trace ++ [.op who (.idis m)] } := rfl

theorem opIclr_eq (who : Issuer) (m : Mask) :
    opIclr who m s = { s with isr := s.isr &&& ~~~m, trace := s.trace ++ [.op who (.iclr m)] } := rfl

theorem opIen_eq (who : Issuer) (m : Mask) :
    opIen who m s = { s with ier := s.ier ||| m, trace := s.trace ++ [.op who (.ien m)] } := rfl

/-- Returning data changes `hrdata` alone, and only for the host. -/
theorem returnData_eq (who : Issuer) (v : BitVec 8) :
    s.returnData who v
      = { s with hrdata := if who = .host then some v else s.hrdata } := by
  cases who <;> rfl

theorem opIstat_eq (who : Issuer) :
    opIstat who s
      = { s with
          hrdata := if who = .host then some s.isr else s.hrdata
          trace := s.trace ++ [.op who (.istat s.isr)] } := by
  cases who <;> rfl

/-- A row sample changes the oracle and the counter of free values alone. -/
theorem consumeRow_eq :
    consumeRow s = { s with rows := (consumeRow s).rows, free := (consumeRow s).free } := by
  unfold consumeRow
  split
  · rfl
  · split <;> rfl

theorem opRdcmb_eq (who : Issuer) :
    opRdcmb who s
      = { s with
          rows := (consumeRow s).rows, free := (consumeRow s).free
          hrdata := if who = .host then some (combinedWord s) else s.hrdata
          trace := s.trace ++ [.op who (.rdcmb (combinedWord s))] } := by
  unfold opRdcmb
  rw [returnData_eq, consumeRow_eq]
  rfl

/-- The read half of SCANSTEP: the oracle, `RES`, the ROM's output and the trace, nothing else (R127). -/
theorem opScanRead_eq :
    opScanRead s
      = { s with
          rows := (consumeRow s).rows, free := (consumeRow s).free
          res := romRead (romAddr (rowSel (combinedWord s)) s.p)
          romOut := romRead (romAddr (rowSel (combinedWord s)) s.p)
          trace := s.trace ++ [.op .sequencer (.rdcmb (combinedWord s))] } := by
  unfold opScanRead
  rw [opRdcmb_eq]
  rfl

/-- The host owns the port exactly while the block is idle (R108). -/
theorem issuer_eq_host : (s.issuer = .host) = (s.idle = true) := by
  unfold State.issuer
  cases s.idle <;> simp

theorem takeInvoke_eq :
    takeInvoke s = { s with hs := .sDis, trace := s.trace ++ [.invoke] } := rfl

theorem returnFromHandler_eq (k : ReturnKind) :
    returnFromHandler k s
      = { s with ret := true, hs := .sIdle, trace := s.trace ++ [.ret k] } := rfl

/-- The row half of the combined word is the sample. -/
@[simp] theorem rowSel_combinedWord : rowSel (combinedWord s) = rowSample s := by
  unfold rowSel combinedWord
  generalize rowSample s = a
  generalize s.col = b
  revert a b
  decide

/-- The column half of the combined word is `COL` (R60). -/
@[simp] theorem combinedWord_cols : (combinedWord s).extractLsb' 0 4 = s.col := by
  unfold combinedWord
  generalize rowSample s = a
  generalize s.col = b
  revert a b
  decide

/-- An edge sets status bits and records one event, or names no channel and does nothing (R180). -/
theorem envEdge_cases (m : Mask) :
    (maskArg s.cfg m = 0#8 ∧ envEdge m s = s) ∨
      (maskArg s.cfg m ≠ 0#8 ∧ envEdge m s
        = { s with
            isr := s.isr ||| maskArg s.cfg m
            trace := s.trace ++ [.edge (maskArg s.cfg m)] }) := by
  unfold envEdge
  split
  · exact .inl ⟨‹_›, rfl⟩
  · exact .inr ⟨‹_›, rfl⟩

end Sys2Proof.Machine
end

