-- ==== Sys2Proof/Laws/PerInstr.lean ====
section
/-! SUPPORT. One fact per instruction: its encoding is a word of its row of `spec/opcode_table.json`
(the row's format, match and mask). -/

namespace Sys2Proof.Laws

/-- The row of the opcode table: its format, `match` and `mask`. -/
def rowOf : Instr → Format × Nat × Nat
  | .wrcol _ => (.cmd, 0x000, 0x700)
  | .rdcmb => (.cmd, 0x100, 0x700)
  | .wrout _ => (.cmd, 0x200, 0x700)
  | .istat => (.cmd, 0x300, 0x700)
  | .idis _ => (.cmd, 0x400, 0x700)
  | .iclr _ => (.cmd, 0x500, 0x700)
  | .ien _ => (.cmd, 0x600, 0x700)
  | .reservedOp7 => (.cmd, 0x700, 0x700)
  | .keydecK0 => (.dr, 0xE7, 0xFF)
  | .keydecK1 => (.dr, 0x77, 0xFF)
  | .keydecK2 => (.dr, 0x7B, 0xFF)
  | .keydecK3 => (.dr, 0x7D, 0xFF)
  | .keydecK4 => (.dr, 0xB7, 0xFF)
  | .keydecK5 => (.dr, 0xBB, 0xFF)
  | .keydecK6 => (.dr, 0xBD, 0xFF)
  | .keydecK7 => (.dr, 0xD7, 0xFF)
  | .keydecK8 => (.dr, 0xDB, 0xFF)
  | .keydecK9 => (.dr, 0xDD, 0xFF)
  | .keydecK10 => (.dr, 0x7E, 0xFF)
  | .keydecK11 => (.dr, 0xBE, 0xFF)
  | .keydecK12 => (.dr, 0xDE, 0xFF)
  | .keydecK13 => (.dr, 0xEE, 0xFF)
  | .keydecK14 => (.dr, 0xED, 0xFF)
  | .keydecK15 => (.dr, 0xEB, 0xFF)
  | .keydecMiss _ _ => (.dr, 0x00, 0x00)
  | .sIdle => (.hs, 0x0, 0x7)
  | .sDis => (.hs, 0x1, 0x7)
  | .sChk => (.hs, 0x2, 0x7)
  | .sCol => (.hs, 0x3, 0x7)
  | .sRd => (.hs, 0x4, 0x7)
  | .sOut => (.hs, 0x5, 0x7)
  | .sClr => (.hs, 0x6, 0x7)
  | .sEn => (.hs, 0x7, 0x7)

/-- The encoding is in the row's format, fits its width and has the row's fixed bits. -/
def TableRow.Statement (i : Instr) : Prop :=
  (encode i).1 = (rowOf i).1 ∧ (encode i).2 < 2 ^ formatWidth (rowOf i).1
    ∧ (encode i).2 &&& (rowOf i).2.2 = (rowOf i).2.1

/-- A command word is `op * 256 + arg`. -/
theorem cmdWord_toNat (op : BitVec 3) (arg : BitVec 8) :
    (CmdWord.mk op arg).toNat = op.toNat * 256 + arg.toNat := by
  unfold CmdWord.mk
  rw [BitVec.toNat_append, Nat.shiftLeft_eq, Nat.mul_comm, ← Nat.two_pow_add_eq_or_of_lt arg.isLt]

/-- A command word's masked bits are those of its `op`. -/
theorem cmdWord_row (op : BitVec 3) (arg : BitVec 8) :
    (CmdWord.mk op arg).toNat < 2 ^ 11
      ∧ (CmdWord.mk op arg).toNat &&& 0x700 = op.toNat * 256 := by
  refine ⟨(CmdWord.mk op arg).isLt, ?_⟩
  have h : (CmdWord.mk op arg) &&& 0x700#11 = CmdWord.mk op 0#8 := by
    unfold CmdWord.mk
    revert op
    intro op
    apply BitVec.eq_of_getLsbD_eq
    intro i hi
    simp only [BitVec.getLsbD_and, BitVec.getLsbD_append]
    by_cases h8 : i < 8
    · have : ∀ j : Fin 8, (0x700#11).getLsbD j.val = false := by decide
      simp [h8, this ⟨i, h8⟩]
    · have : ∀ j : Fin 11, 8 ≤ j.val → (0x700#11).getLsbD j.val = true := by decide
      simp [h8, this ⟨i, hi⟩ (by simp; omega)]
  have h' := congrArg BitVec.toNat h
  rw [BitVec.toNat_and] at h'
  rw [cmdWord_toNat op 0#8] at h'
  simpa using h'

theorem TableRow.wrcol (p : Nibble) : TableRow.Statement (.wrcol p) :=
  ⟨rfl, cmdWord_row _ _⟩

theorem TableRow.rdcmb : TableRow.Statement (.rdcmb) :=
  ⟨rfl, by decide, by decide⟩

theorem TableRow.wrout (w : OutWord) : TableRow.Statement (.wrout w) :=
  ⟨rfl, cmdWord_row _ _⟩

theorem TableRow.istat : TableRow.Statement (.istat) :=
  ⟨rfl, by decide, by decide⟩

theorem TableRow.idis (a : Mask) : TableRow.Statement (.idis a) :=
  ⟨rfl, cmdWord_row _ _⟩

theorem TableRow.iclr (a : Mask) : TableRow.Statement (.iclr a) :=
  ⟨rfl, cmdWord_row _ _⟩

theorem TableRow.ien (a : Mask) : TableRow.Statement (.ien a) :=
  ⟨rfl, cmdWord_row _ _⟩

theorem TableRow.reservedOp7 : TableRow.Statement (.reservedOp7) :=
  ⟨rfl, by decide, by decide⟩

theorem TableRow.keydecK0 : TableRow.Statement (.keydecK0) :=
  ⟨rfl, by decide, by decide⟩

theorem TableRow.keydecK1 : TableRow.Statement (.keydecK1) :=
  ⟨rfl, by decide, by decide⟩

theorem TableRow.keydecK2 : TableRow.Statement (.keydecK2) :=
  ⟨rfl, by decide, by decide⟩

theorem TableRow.keydecK3 : TableRow.Statement (.keydecK3) :=
  ⟨rfl, by decide, by decide⟩

theorem TableRow.keydecK4 : TableRow.Statement (.keydecK4) :=
  ⟨rfl, by decide, by decide⟩

theorem TableRow.keydecK5 : TableRow.Statement (.keydecK5) :=
  ⟨rfl, by decide, by decide⟩

theorem TableRow.keydecK6 : TableRow.Statement (.keydecK6) :=
  ⟨rfl, by decide, by decide⟩

theorem TableRow.keydecK7 : TableRow.Statement (.keydecK7) :=
  ⟨rfl, by decide, by decide⟩

theorem TableRow.keydecK8 : TableRow.Statement (.keydecK8) :=
  ⟨rfl, by decide, by decide⟩

theorem TableRow.keydecK9 : TableRow.Statement (.keydecK9) :=
  ⟨rfl, by decide, by decide⟩

theorem TableRow.keydecK10 : TableRow.Statement (.keydecK10) :=
  ⟨rfl, by decide, by decide⟩

theorem TableRow.keydecK11 : TableRow.Statement (.keydecK11) :=
  ⟨rfl, by decide, by decide⟩

theorem TableRow.keydecK12 : TableRow.Statement (.keydecK12) :=
  ⟨rfl, by decide, by decide⟩

theorem TableRow.keydecK13 : TableRow.Statement (.keydecK13) :=
  ⟨rfl, by decide, by decide⟩

theorem TableRow.keydecK14 : TableRow.Statement (.keydecK14) :=
  ⟨rfl, by decide, by decide⟩

theorem TableRow.keydecK15 : TableRow.Statement (.keydecK15) :=
  ⟨rfl, by decide, by decide⟩

theorem TableRow.keydecMiss (rows cols : Nibble) : TableRow.Statement (.keydecMiss rows cols) :=
  ⟨rfl, (rows ++ cols).isLt, Nat.and_zero _⟩

theorem TableRow.sIdle : TableRow.Statement (.sIdle) :=
  ⟨rfl, by decide, by decide⟩

theorem TableRow.sDis : TableRow.Statement (.sDis) :=
  ⟨rfl, by decide, by decide⟩

theorem TableRow.sChk : TableRow.Statement (.sChk) :=
  ⟨rfl, by decide, by decide⟩

theorem TableRow.sCol : TableRow.Statement (.sCol) :=
  ⟨rfl, by decide, by decide⟩

theorem TableRow.sRd : TableRow.Statement (.sRd) :=
  ⟨rfl, by decide, by decide⟩

theorem TableRow.sOut : TableRow.Statement (.sOut) :=
  ⟨rfl, by decide, by decide⟩

theorem TableRow.sClr : TableRow.Statement (.sClr) :=
  ⟨rfl, by decide, by decide⟩

theorem TableRow.sEn : TableRow.Statement (.sEn) :=
  ⟨rfl, by decide, by decide⟩

end Sys2Proof.Laws
end

