-- ==== Sys2Proof/Laws/Step.lean ====
section
/-! SUPPORT. What a step can be, by the act that is next. -/

namespace Sys2Proof.Machine

/-- What a turn comes to decides the step. -/
theorem step_of_run (s t : State) (i : Instr) (h : nextTurn s = .run i t) : step s = exec i t := by
  unfold step
  rw [h]

theorem step_of_settled (s t : State) (h : nextTurn s = .settled t) : step s = .next t := by
  unfold step
  rw [h]

theorem step_of_stop (s : State) (r : Refusal) (h : nextTurn s = .stop r) :
    step s = .refused r := by
  unfold step
  rw [h]

/-- A step that answers a next state was a run of an instruction or a settled act. -/
theorem step_next_cases (s t : State) (h : step s = .next t) :
    (∃ i u, nextTurn s = .run i u ∧ exec i u = .next t) ∨ nextTurn s = .settled t := by
  unfold step at h
  split at h
  · exact .inl ⟨_, _, ‹_›, h⟩
  · cases h
    exact .inr ‹_›
  · cases h

variable (s : State)

@[simp] theorem State.takeAct_col : s.takeAct.col = s.col := rfl
@[simp] theorem State.takeAct_out : s.takeAct.out = s.out := rfl
@[simp] theorem State.takeAct_outv : s.takeAct.outv = s.outv := rfl
@[simp] theorem State.takeAct_ier : s.takeAct.ier = s.ier := rfl
@[simp] theorem State.takeAct_isr : s.takeAct.isr = s.isr := rfl
@[simp] theorem State.takeAct_hs : s.takeAct.hs = s.hs := rfl
@[simp] theorem State.takeAct_k : s.takeAct.k = s.k := rfl
@[simp] theorem State.takeAct_p : s.takeAct.p = s.p := rfl
@[simp] theorem State.takeAct_res : s.takeAct.res = s.res := rfl
@[simp] theorem State.takeAct_trace : s.takeAct.trace = s.trace := rfl
@[simp] theorem State.takeAct_rst : s.takeAct.rst = s.rst := rfl
@[simp] theorem State.takeAct_held : s.takeAct.held = s.held := rfl
@[simp] theorem State.takeAct_rows : s.takeAct.rows = s.rows := rfl
@[simp] theorem State.takeAct_cfg : s.takeAct.cfg = s.cfg := rfl
@[simp] theorem State.takeAct_romOut : s.takeAct.romOut = s.romOut := rfl
@[simp] theorem State.takeAct_free : s.takeAct.free = s.free := rfl
@[simp] theorem State.takeAct_invokeI : s.takeAct.invokeI = false := rfl
@[simp] theorem State.takeAct_outWe : s.takeAct.outWe = false := rfl
@[simp] theorem State.takeAct_ret : s.takeAct.ret = false := rfl
@[simp] theorem State.takeAct_hrdata : s.takeAct.hrdata = none := rfl
@[simp] theorem State.takeAct_inputs : s.takeAct.inputs = s.inputs.tail := rfl
@[simp] theorem State.takeAct_ie : s.takeAct.ie = s.ie := rfl
@[simp] theorem State.takeAct_is : s.takeAct.is = s.is := rfl
@[simp] theorem State.takeAct_irq : s.takeAct.irq = s.irq := rfl
@[simp] theorem State.takeAct_idle : s.takeAct.idle = s.idle := rfl
@[simp] theorem State.takeAct_busy : s.takeAct.busy = s.busy := rfl
@[simp] theorem State.takeAct_invokeEnabled : s.takeAct.invokeEnabled = s.invokeEnabled := rfl

theorem State.takeAct_nil (h : s.inputs = []) : s.takeAct = s.settlePins := by
  unfold State.takeAct
  rw [h, List.tail_nil, ← h]
  rfl

theorem State.takeAct_cons (i : Input) (rest : List Input) (h : s.inputs = i :: rest) :
    s.takeAct = { s.settlePins with inputs := rest } := by
  unfold State.takeAct
  rw [h]
  rfl

@[simp] theorem State.nextAct_nil (h : s.inputs = []) : s.nextAct = .seq := by
  simp [State.nextAct, h]

@[simp] theorem State.nextAct_cons (i : Input) (rest : List Input) (h : s.inputs = i :: rest) :
    s.nextAct = i := by
  simp [State.nextAct, h]

/-- The turn with `rst` low and the sequencer's act next. -/
theorem nextTurn_seq (hr : s.rst = false) (hi : s.nextAct = .seq) :
    nextTurn s = .run (stateInstr s.hs) s.takeAct := by
  unfold nextTurn
  rw [hr, hi]
  simp [turnRunning]

/-- Everything a step that answers a next state can be, guards included. -/
inductive StepCase (s : State) : State → Prop where
  /-- The sequencer, INVOKE, an edge or a command while `rst` is high. -/
  | still (hr : s.rst = true) : StepCase s s.takeAct
  /-- INVOKE while the sequencer runs. -/
  | invokeBusy (hr : s.rst = false) (hi : s.nextAct = .invoke) (hb : s.busy = true) :
      StepCase s s.takeAct
  /-- The sequencer's step. -/
  | seq (t : State) (hr : s.rst = false) (hi : s.nextAct = .seq)
      (he : exec (stateInstr s.hs) s.takeAct = .next t) : StepCase s t
  /-- A host command. -/
  | host (w : CmdWord) (t : State) (hr : s.rst = false) (hi : s.nextAct = .hcmd w)
      (hb : s.idle = true) (he : exec (decodeCmd w) s.takeAct = .next t) : StepCase s t
  /-- A read of the decoder ROM. -/
  | rom (a : RomAddr) (t : State) (hi : s.nextAct = .rom a)
      (he : exec (decodeRom a) s.takeAct = .next t) : StepCase s t
  /-- An edge. -/
  | edge (m : Mask) (hr : s.rst = false) (hi : s.nextAct = .edge m) :
      StepCase s (envEdge m s.takeAct)
  /-- An enabled INVOKE. -/
  | invoke (hr : s.rst = false) (hi : s.nextAct = .invoke) (he : s.invokeEnabled = true) :
      StepCase s (takeInvoke s.takeAct)
  /-- A key pressed. -/
  | keyDown (r c : Line) (hi : s.nextAct = .keyDown r c) (hk : s.cfg.rowsEnv = .keypad) :
      StepCase s (envKeyDown r c s.takeAct)
  /-- A key released. -/
  | keyUp (r c : Line) (hi : s.nextAct = .keyUp r c) (hk : s.cfg.rowsEnv = .keypad) :
      StepCase s (envKeyUp r c s.takeAct)
  /-- A sample of the sink pins. -/
  | hRdout (hi : s.nextAct = .hRdout) : StepCase s (envRdout s.takeAct)
  /-- `rst` sampled high. -/
  | rstHigh (hi : s.nextAct = .rst true) : StepCase s (envReset s.takeAct)
  /-- `rst` sampled low. -/
  | rstLow (hi : s.nextAct = .rst false) : StepCase s { s.takeAct with rst := false }

/-- An enabled INVOKE finds S_IDLE and takes the interrupt. -/
theorem exec_invoked (t : State) (hb : s.busy = false)
    (he : exec (decodeState s.hs.code) { s.takeAct with invokeI := true } = .next t) :
    t = takeInvoke s.takeAct := by
  have hh : s.hs = .sIdle := by simpa [State.busy, State.idle] using hb
  rw [hh] at he
  exact (Host.Outcome.next.inj he).symm

/-- Every step that answers a next state is one of those cases. -/
theorem step_case (t : State) (h : step s = .next t) : StepCase s t := by
  unfold step nextTurn at h
  cases hr : s.rst <;> generalize hi : s.nextAct = a at h <;> rw [hr] at h <;>
    cases a <;> simp only [turnRunning, turnInReset, reduceIte, Bool.false_eq_true] at h
  case false.seq => exact .seq _ hr hi (by simpa using h)
  case false.hcmd w =>
    cases hb : s.takeAct.idle <;> simp only [hb, reduceIte, Bool.false_eq_true, reduceCtorEq] at h
    exact .host w _ hr hi hb h
  case false.invoke =>
    cases hb : s.takeAct.busy <;> simp only [hb, reduceIte, Bool.false_eq_true] at h
    · cases he : s.takeAct.invokeEnabled <;>
        simp only [he, reduceIte, Bool.false_eq_true, reduceCtorEq] at h
      exact exec_invoked s t hb h ▸ .invoke hr hi he
    · exact Host.Outcome.next.inj h ▸ .invokeBusy hr hi hb
  case false.rst b =>
    cases b <;> simp only [reduceIte, Bool.false_eq_true] at h <;> cases h
    · exact .rstLow hi
    · exact .rstHigh hi
  case true.rst b =>
    cases b <;> simp only [reduceIte, Bool.false_eq_true] at h <;> cases h
    · exact .rstLow hi
    · exact .rstHigh hi
  case false.rom => exact .rom _ _ hi h
  case true.rom => exact .rom _ _ hi h
  case true.seq => exact Host.Outcome.next.inj h ▸ .still hr
  case true.hcmd => exact Host.Outcome.next.inj h ▸ .still hr
  case true.edge => exact Host.Outcome.next.inj h ▸ .still hr
  case true.invoke => exact Host.Outcome.next.inj h ▸ .still hr
  case true.hRdout => exact Host.Outcome.next.inj h ▸ .hRdout hi
  case false.hRdout => exact Host.Outcome.next.inj h ▸ .hRdout hi
  case false.edge => exact Host.Outcome.next.inj h ▸ .edge _ hr hi
  all_goals
    cases hk : s.cfg.rowsEnv <;>
      simp only [State.takeAct_cfg, hk, reduceIte, reduceCtorEq] at h
    cases h
    first
      | exact .keyDown _ _ hi hk
      | exact .keyUp _ _ hi hk

/-- A choice of instructions whose branches all answer `r` answers `r`. -/
theorem exec_ite (p : Prop) [Decidable p] (i j : Instr)
    (r : Host.Outcome State Fault Refusal) (hi : p → exec i s = r) (hj : exec j s = r) :
    exec (if p then i else j) s = r := by
  split
  · exact hi ‹_›
  · exact hj

/-- An address is its row half above its column half (R76). -/
theorem romAddr_halves (a : RomAddr) : romAddr (a.extractLsb' 4 4) (a.extractLsb' 0 4) = a := by
  revert a
  decide

/-- Whatever the address, its row of format DR reads the ROM there (R125). -/
theorem exec_decodeRom (a : RomAddr) :
    exec (decodeRom a) s = .next (opKeydec a s) := by
  unfold decodeRom
  iterate 16 refine exec_ite _ _ _ _ _ (fun h => by subst h; rfl) ?_
  rw [show exec (.keydecMiss (a.extractLsb' 4 4) (a.extractLsb' 0 4)) s
    = .next (opKeydec (romAddr (a.extractLsb' 4 4) (a.extractLsb' 0 4)) s) from rfl, romAddr_halves]

/-- One more step of any machine behind the host's interface. -/
theorem core_run_next (M : Host.Core) (n : Nat) (a b : M.State) (h : M.step a = .next b) :
    M.run (n + 1) a = M.run n b := by
  have hs : M.run (n + 1) a = (match M.step a with
      | .next c => M.run n c
      | .fault r => .fault r
      | .refused r => .refused r) := rfl
  rw [hs, h]

/-- A run whose first step answers a next state goes on from there. -/
theorem run_next (n : Nat) (t : State) (h : step s = .next t) :
    Host.Core.run Sys2Proof.core (n + 1) s = Host.Core.run Sys2Proof.core n t :=
  core_run_next Sys2Proof.core n s t h

end Sys2Proof.Machine
end

