-- ==== Sys2Proof/Machine/Text.lean ====
section
/-! DEFINITION. The textual form of events (R85) and the command words of a trace (R78, R80). -/

namespace Sys2Proof.Machine

/-- A bit as a digit. -/
def bitText (b : Bool) : String := if b then "1" else "0"

/-- A 4-bit pattern in binary, bit 3 first (R85). -/
def patternText (p : Nibble) : String :=
  bitText (p.getLsbD 3) ++ bitText (p.getLsbD 2) ++ bitText (p.getLsbD 1) ++ bitText (p.getLsbD 0)

/-- A hexadecimal digit. -/
def hexDigit (v : BitVec 4) : String :=
  match v.toNat with
  | 0 => "0" | 1 => "1" | 2 => "2" | 3 => "3" | 4 => "4" | 5 => "5" | 6 => "6" | 7 => "7"
  | 8 => "8" | 9 => "9" | 10 => "A" | 11 => "B" | 12 => "C" | 13 => "D" | 14 => "E" | _ => "F"

/-- Two hexadecimal digits. -/
def hex2 (v : BitVec 8) : String := "0x" ++ hexDigit (v.extractLsb' 4 4) ++ hexDigit (v.extractLsb' 0 4)

/-- A mask in hexadecimal, one digit when one is enough. DEDUCED from the examples of R85 (log 15). -/
def maskText (m : Mask) : String :=
  if m.extractLsb' 4 4 = 0#4 then "0x" ++ hexDigit (m.extractLsb' 0 4) else hex2 m

/-- The textual form of an operation (R85). -/
def OpEvent.text : OpEvent → String
  | .wrcol p => "WRCOL(" ++ patternText p ++ ")"
  | .rdcmb v => "RDCMB() -> " ++ hex2 v
  | .wrout w => "WROUT(" ++ hex2 (w.setWidth 8) ++ ")"
  | .istat m => "ISTAT() -> " ++ maskText m
  | .idis m => "IDIS(" ++ maskText m ++ ")"
  | .iclr m => "ICLR(" ++ maskText m ++ ")"
  | .ien m => "IEN(" ++ maskText m ++ ")"

/-- The line number of a key position. -/
def lineText (l : Line) : String := hexDigit (BitVec.ofNat 4 l.val)

/-- The textual form of an event; the host's operations carry the prefix `H_` (R85, R185, R193). -/
def Event.text : Event → String
  | .reset => "RESET"
  | .op .sequencer o => o.text
  | .op .host o => "H_" ++ o.text
  | .hRdout v => "H_RDOUT() -> " ++ hex2 (v.setWidth 8)
  | .edge m => "EDGE(" ++ maskText m ++ ")"
  | .invoke => "INVOKE"
  | .ret .normal => "RETURN(normal)"
  | .ret .early => "RETURN(early)"
  | .keyDown r c => "KEY_DOWN(" ++ lineText r ++ ", " ++ lineText c ++ ")"
  | .keyUp r c => "KEY_UP(" ++ lineText r ++ ", " ++ lineText c ++ ")"

/-- The command word of a performed operation, zeros in its ignored bits (R79, R80). -/
def OpEvent.word : OpEvent → CmdWord
  | .wrcol p => CmdWord.mk 0#3 (p.setWidth 8)
  | .rdcmb _ => CmdWord.mk 1#3 0#8
  | .wrout w => CmdWord.mk 2#3 (w.setWidth 8)
  | .istat _ => CmdWord.mk 3#3 0#8
  | .idis m => CmdWord.mk 4#3 m
  | .iclr m => CmdWord.mk 5#3 m
  | .ien m => CmdWord.mk 6#3 m

/-- The command words the sequencer issued, in order (the "command words" of `95_test_vectors.md`). -/
def sequencerWords (t : List Event) : List CmdWord :=
  t.filterMap fun e => match e with
    | .op .sequencer o => some o.word
    | _ => none

end Sys2Proof.Machine
end

