-- ==== Sys2Proof/Tests/Slice0.lean ====
section
/-! SUPPORT. Tests by evaluation. Expected values are those of `95_test_vectors.md` (section named in each
comment) or are written out from the encodings of `30_encoding.md`. The theorems named `witness_` show a
state and operands that meet all hypotheses of the statement they are named after, clause by clause. -/

namespace Sys2Proof.Tests

open Sys2Proof.Machine

/-! Helpers. -/

/-- The state after reset with these acts to come. -/
def acts (l : List Input) : State := { State.reset with inputs := l }

/-- The state after reset with the sequencer in `h`. -/
def inState (h : HState) : State := { State.reset with hs := h }

/-- Two channels, the keypad's being channel 1. -/
def twoChannels : Config := { Config.default with maskW := 2, ch := 1 }

/-- The widest masks, the keypad's channel the last one. -/
def eightChannels : Config := { Config.default with maskW := 8, ch := 7 }

/-- The default configuration with the nominal keypad. -/
def keypadConfig : Config := { Config.default with rowsEnv := .keypad }

/-- The default configuration under `GATED`. -/
def gatedConfig : Config := { Config.default with invokePolicy := .gated }

/-- With the keypad and these keys held. -/
def holding (keys : List (Line × Line)) (s : State) : State :=
  { s with
    cfg := { s.cfg with rowsEnv := .keypad }
    held := keys.foldl (fun h k => setKey h k.1 k.2 true) s.held }

/-- The state an outcome answers, if it answers one. -/
def nextOf (o : Host.Outcome State Fault Refusal) : Option State :=
  match o with
  | .next t => some t
  | _ => none

/-- The refusal an outcome gives, if it gives one. -/
def refusalOf (o : Host.Outcome State Fault Refusal) : Option Refusal :=
  match o with
  | .refused r => some r
  | _ => none

/-- The instruction a decoder answers, if it answers one. -/
def decoded (f : Format) (w : Nat) : Option Instr :=
  match decode f w with
  | .ok i => some i
  | .error _ => none

/-- The error a decoder gives, if it gives one. -/
def decodeErrorOf (f : Format) (w : Nat) : Option DecodeError :=
  match decode f w with
  | .ok _ => none
  | .error e => some e

/-! Well-formedness: each check refuses an ill-formed term. -/

theorem test_wf_config_default : Config.default.wf = true := by decide
theorem test_wf_config_eight : eightChannels.wf = true := by decide
theorem test_wf_refuses_maskW_zero : ({ Config.default with maskW := 0 } : Config).wf = false := by
  decide
theorem test_wf_refuses_maskW_nine : ({ Config.default with maskW := 9 } : Config).wf = false := by
  decide
theorem test_wf_refuses_ch : ({ Config.default with ch := 1 } : Config).wf = false := by decide
theorem test_wf_refuses_tStep : ({ Config.default with tStep := 0 } : Config).wf = false := by decide
theorem test_wf_refuses_tSettle : ({ Config.default with tSettle := 0 } : Config).wf = false := by
  decide
theorem test_wf_refuses_miss_of_a_hit :
    Instr.wf (.keydecMiss 0b1110#4 0b1101#4) = false := by decide
theorem test_wf_miss_two_rows : Instr.wf (.keydecMiss 0b1100#4 0b1101#4) = true := by decide
theorem test_canonical_refuses_idis :
    Instr.canonicalFor Config.default (.idis 0xFF#8) = false := by decide
theorem test_canonical_refuses_iclr :
    Instr.canonicalFor Config.default (.iclr 0x02#8) = false := by decide
theorem test_canonical_refuses_ien :
    Instr.canonicalFor twoChannels (.ien 0x04#8) = false := by decide
theorem test_canonical_ien : Instr.canonicalFor twoChannels (.ien 0x03#8) = true := by decide
theorem test_canonical_refuses_miss_of_a_hit :
    Instr.canonicalFor Config.default (.keydecMiss 0b0111#4 0b0111#4) = false := by decide

/-! Decoding: words written out bit by bit from R75, R78 to R80 and R82. -/

theorem test_decode_wrcol : decoded .cmd 0b000_0000_1101 = some (.wrcol 0b1101#4) := by decide
theorem test_decode_wrcol_ignored : decoded .cmd 0b000_1111_1110 = some (.wrcol 0b1110#4) := by
  decide
theorem test_decode_rdcmb : decoded .cmd 0b001_0000_0000 = some .rdcmb := by decide
theorem test_decode_rdcmb_ignored : decoded .cmd 0b001_1010_0101 = some .rdcmb := by decide
theorem test_decode_wrout : decoded .cmd 0b010_0001_1111 = some (.wrout 0x1F#5) := by decide
theorem test_decode_wrout_ignored : decoded .cmd 0b010_1110_1110 = some (.wrout 0x0E#5) := by decide
theorem test_decode_istat : decoded .cmd 0b011_0000_0000 = some .istat := by decide
theorem test_decode_idis : decoded .cmd 0b100_0000_0001 = some (.idis 0x01#8) := by decide
theorem test_decode_iclr : decoded .cmd 0b101_1000_0001 = some (.iclr 0x81#8) := by decide
theorem test_decode_ien : decoded .cmd 0b110_0000_0010 = some (.ien 0x02#8) := by decide
theorem test_decode_reserved : decoded .cmd 0b111_1111_1111 = some .reservedOp7 := by decide

/-- The ROM addresses in the order of the key codes, row reading above column pattern (R75). -/
theorem test_decode_rom_rows :
    [0b1110_0111, 0b0111_0111, 0b0111_1011, 0b0111_1101, 0b1011_0111, 0b1011_1011, 0b1011_1101,
      0b1101_0111, 0b1101_1011, 0b1101_1101, 0b0111_1110, 0b1011_1110, 0b1101_1110, 0b1110_1110,
      0b1110_1101, 0b1110_1011].map (decoded .dr)
    = [.keydecK0, .keydecK1, .keydecK2, .keydecK3, .keydecK4, .keydecK5, .keydecK6, .keydecK7,
        .keydecK8, .keydecK9, .keydecK10, .keydecK11, .keydecK12, .keydecK13, .keydecK14,
        .keydecK15].map some := by decide
theorem test_decode_rom_miss :
    [0b1111_1110, 0b0000_1110, 0b1110_1111, 0b0000_0000].map (decoded .dr)
    = [.keydecMiss 0b1111#4 0b1110#4, .keydecMiss 0b0000#4 0b1110#4,
        .keydecMiss 0b1110#4 0b1111#4, .keydecMiss 0b0000#4 0b0000#4].map some := by decide
theorem test_decode_state_codes :
    [0, 1, 2, 3, 4, 5, 6, 7].map (decoded .hs)
    = [.sIdle, .sDis, .sChk, .sCol, .sRd, .sOut, .sClr, .sEn].map some := by decide
theorem test_decode_refuses_wide :
    decodeErrorOf .cmd 0x800 = some (.tooWide .cmd) ∧ decodeErrorOf .dr 0x100 = some (.tooWide .dr)
      ∧ decodeErrorOf .hs 8 = some (.tooWide .hs) := by decide
theorem test_table_words :
    decodeTableWord 16 0x20E = some (.wrout 0x0E#5) ∧ decodeTableWord 8 0xED = some .keydecK14
      ∧ decodeTableWord 8 4 = some .sRd ∧ decodeTableWord 16 0x800 = none
      ∧ decodeTableWord 8 0x1ED = none ∧ decodeTableWord 0 0 = none := by decide

/-! The operations (section 2.4). -/

theorem test_wrcol :
    (nextOf (exec (.wrcol 0b1101#4) State.reset)).map (fun t => (t.col, t.p, t.trace))
    = some (0b1101#4, 0b1110#4, [.reset, .op .host (.wrcol 0b1101#4)]) := by decide
theorem test_rdcmb :
    (nextOf (exec .rdcmb { State.reset with col := 0b1101#4, rows := [0b1110#4, 0b0111#4] })).map
      (fun t => (t.hrdata, t.rows, t.col))
    = some (some 0xED#8, [0b0111#4], 0b1101#4) := by decide
theorem test_wrout :
    (nextOf (exec (.wrout 0x0E#5) State.reset)).map (fun t => (t.outO, t.outv, t.outWe))
    = some (0x0E#5, true, true) := by decide
theorem test_istat :
    (nextOf (exec .istat { State.reset with cfg := twoChannels, isr := 1#8 })).map
      (fun t => (t.hrdata, t.isr))
    = some (some 1#8, 1#8) := by decide
theorem test_idis :
    (nextOf (exec (.idis 2#8) { State.reset with cfg := twoChannels, ier := 3#8 })).map (·.ier)
    = some 1#8 := by decide
/-- `4FF` under `MASK_W = 1` is `IDIS(0x1)` (section 2.5). -/
theorem test_idis_ignores_high_bits :
    (nextOf (exec (.idis 0xFF#8) { State.reset with ier := 1#8 })).map (fun t => (t.ier, t.trace))
    = some (0#8, [.reset, .op .host (.idis 1#8)]) := by decide
theorem test_iclr :
    (nextOf (exec (.iclr 2#8) { State.reset with cfg := twoChannels, isr := 3#8 })).map (·.isr)
    = some 1#8 := by decide
theorem test_ien_raises_irq :
    (nextOf (exec (.ien 1#8) { State.reset with isr := 1#8 })).map (fun t => (t.ier, t.irq))
    = some (1#8, true) := by decide
theorem test_reserved :
    refusalOf (step (acts [.hcmd 0x7FF#11])) = some .reservedOp := by decide

/-! The decoder ROM (section 2.3). -/

theorem test_keydec_key14 :
    (nextOf (exec .keydecK14 State.reset)).map (·.romOut) = some 0x0E#5 := by decide
/-- Key 0 is a hit whose code is zero. -/
theorem test_keydec_key0 :
    (nextOf (exec .keydecK0 State.reset)).map (fun t => (t.romOut, hitFlag t.romOut))
    = some (0x00#5, true) := by decide
theorem test_keydec_miss :
    (nextOf (exec (.keydecMiss 0b1100#4 0b1101#4) State.reset)).map
      (fun t => (t.romOut, hitFlag t.romOut))
    = some (0x10#5, false) := by decide
/-- The two lines of the grid for row readings 7 and 14, addresses `x0` to `xF`. -/
theorem test_rom_grid :
    (List.range 16).map (fun n => (romRead (BitVec.ofNat 8 (0x70 + n))).toNat)
      = [16, 16, 16, 16, 16, 16, 16, 1, 16, 16, 16, 2, 16, 3, 10, 16]
    ∧ (List.range 16).map (fun n => (romRead (BitVec.ofNat 8 (0xE0 + n))).toNat)
      = [16, 16, 16, 16, 16, 16, 16, 0, 16, 16, 16, 15, 16, 14, 13, 16] := by decide
/-- Section 2.1. -/
theorem test_rotl4 :
    (List.range 16).map (fun n => (rotl4 (BitVec.ofNat 4 n)).toNat)
    = [0, 2, 4, 6, 8, 10, 12, 14, 1, 3, 5, 7, 9, 11, 13, 15] := by decide
/-- Section 2.2. -/
theorem test_rowSel :
    [0xED#8, 0xFE#8, 0x77#8, 0x0F#8, 0xF0#8, 0xCD#8].map rowSel
    = [0b1110#4, 0b1111#4, 0b0111#4, 0b0000#4, 0b1111#4, 0b1100#4] := by decide

/-! The sequencer (section 2.9). -/

theorem test_sIdle_waits :
    nextOf (step State.reset) = some State.reset := by decide
theorem test_sIdle_invoked :
    (nextOf (step (acts [.invoke]))).map (fun t => (t.hs, t.ier, t.trace))
    = some (.sDis, 0#8, [.reset, .invoke]) := by decide
theorem test_sDis :
    (nextOf (step { inState .sDis with ier := 1#8 })).map (fun t => (t.hs, t.ier))
    = some (.sChk, 0#8) := by decide
theorem test_sChk_confirms :
    (nextOf (step { inState .sChk with
      cfg := twoChannels, isr := 3#8, p := 0b1011#4, k := 2#2, res := 0x05#5 })).map
      (fun t => (t.hs, t.p, t.k, t.res))
    = some (.sCol, 0b1110#4, 0#2, 0x10#5) := by decide
/-- The set bit is another channel's. -/
theorem test_sChk_early :
    (nextOf (step { inState .sChk with cfg := twoChannels, isr := 1#8 })).map
      (fun t => (t.hs, t.ret, t.trace))
    = some (.sIdle, true, [.reset, .op .sequencer (.istat 1#8), .ret .early]) := by decide
theorem test_sCol :
    (nextOf (step { inState .sCol with p := 0b1011#4, col := 0b1101#4 })).map
      (fun t => (t.hs, t.col))
    = some (.sRd, 0b1011#4) := by decide
theorem test_sRd_hit :
    (nextOf (step { inState .sRd with
      p := 0b1101#4, col := 0b1101#4, k := 1#2, rows := [0b1110#4] })).map
      (fun t => (t.hs, t.res, t.k, t.p))
    = some (.sOut, 0x0E#5, 1#2, 0b1101#4) := by decide
theorem test_sRd_miss :
    (nextOf (step { inState .sRd with
      p := 0b1011#4, col := 0b1011#4, k := 2#2, rows := [0b1001#4] })).map
      (fun t => (t.hs, t.res, t.k, t.p))
    = some (.sCol, 0x10#5, 3#2, 0b0111#4) := by decide
theorem test_sRd_last_miss :
    (nextOf (step { inState .sRd with
      p := 0b0111#4, col := 0b0111#4, k := 3#2, rows := [0b1111#4] })).map
      (fun t => (t.hs, t.res, t.k, t.p))
    = some (.sOut, 0x10#5, 3#2, 0b0111#4) := by decide
theorem test_sOut_key0 :
    (nextOf (step { inState .sOut with res := 0x00#5 })).map (fun t => (t.hs, t.outO))
    = some (.sClr, 0x00#5) := by decide
theorem test_sOut_no_key :
    (nextOf (step { inState .sOut with
      cfg := { Config.default with nokeyOut := 0x1F#5 }, res := 0x10#5 })).map (·.outO)
    = some 0x1F#5 := by decide
theorem test_sClr :
    (nextOf (step { inState .sClr with isr := 1#8 })).map (fun t => (t.hs, t.isr))
    = some (.sEn, 0#8) := by decide
theorem test_sEn :
    (nextOf (step { inState .sEn with isr := 1#8 })).map (fun t => (t.hs, t.ier, t.irq, t.ret))
    = some (.sIdle, 1#8, true, true) := by decide
/-- The composite operations: key 3 held, one sweep (section 2.6). -/
theorem test_scan_key3 :
    let t := scan (holding [(3, 1)] State.reset)
    t.res = 0x03#5 ∧ t.k = 1#2 ∧ t.p = 0b1101#4 ∧ t.col = 0b1101#4 := by decide
/-- The words of the invocation that serves key 3 (section 2.6). -/
theorem test_handler_words :
    sequencerWords (handler (holding [(3, 1)] { State.reset with isr := 1#8 })).trace
    = [0x401#11, 0x300#11, 0x00E#11, 0x100#11, 0x00D#11, 0x100#11, 0x203#11, 0x501#11, 0x601#11] := by
  decide
/-- Several keys held (section 2.7): 5 and 6 give key 6, 14 and 9 hide each other. -/
theorem test_scan_several_keys :
    (scan (holding [(2, 2), (2, 1)] State.reset)).res = 0x06#5
      ∧ (scan (holding [(0, 1), (1, 1)] State.reset)).res = 0x10#5
      ∧ (scan (holding [(0, 1), (1, 1)] State.reset)).k = 3#2 := by decide
/-- Injected rows (section 2.8). -/
theorem test_sweepResult :
    sweepResult 0b1111#4 0b1110#4 0b0000#4 0b0000#4 = some 14#4
      ∧ sweepResult 0b1100#4 0b1010#4 0b0000#4 0b0110#4 = none
      ∧ sweepLength 0b0011#4 0b1011#4 0b0000#4 = 2 := by decide

/-! The environment and the host (section 2.10). -/

theorem test_edge_while_disabled :
    (nextOf (step (acts [.edge 1#8]))).map (fun t => (t.isr, t.irq, t.trace))
    = some (1#8, false, [.reset, .edge 1#8]) := by decide
theorem test_invoke_pulse_while_busy :
    (nextOf (step { inState .sCol with inputs := [.invoke] })).map (fun t => (t.hs, t.trace))
    = some (.sCol, [.reset]) := by decide
theorem test_invoke_not_enabled :
    refusalOf (step { acts [.invoke] with cfg := gatedConfig }) = some .invokeNotEnabled := by decide
theorem test_host_read_nominal_keypad :
    (nextOf (step (holding [(2, 2)] { acts [.hcmd 0x100#11] with col := 0#4 }))).map (·.hrdata)
    = some (some 0xB0#8) := by decide
theorem test_host_while_busy :
    refusalOf (step { inState .sRd with inputs := [.hcmd 0x300#11] }) = some .hostWhileBusy := by
  decide
theorem test_rdout :
    (nextOf (step { acts [.hRdout] with out := 0x0E#5, outv := true })).map (·.trace)
    = some [.reset, .hRdout 0x0E#5] := by decide
theorem test_key_event_without_keypad :
    refusalOf (step (acts [.keyDown 2 2])) = some .keyEventWithoutKeypad := by decide
theorem test_reset_mid_service :
    (nextOf (step { inState .sRd with
      inputs := [.rst true], isr := 1#8, col := 0b1101#4, k := 1#2, p := 0b1101#4 })).map
      (fun t => (t.hs, t.isr, t.col, t.p, t.trace))
    = some (.sIdle, 0#8, 0b1111#4, 0b1110#4, [.reset]) := by decide
/-- The examples of R85. -/
theorem test_text :
    (Event.op .sequencer (.wrcol 0b1110#4)).text = "WRCOL(1110)"
      ∧ (Event.op .host (.rdcmb 0xB0#8)).text = "H_RDCMB() -> 0xB0"
      ∧ (Event.op .sequencer (.wrout 0x0E#5)).text = "WROUT(0x0E)"
      ∧ (Event.op .sequencer (.idis 1#8)).text = "IDIS(0x1)"
      ∧ (Event.ret .early).text = "RETURN(early)" := by decide

/-! Witnesses. -/

theorem witness_StepRunsDecodedInstruction :
    ((inState .sEn).rst = false ∧ (inState .sEn).inputs = []
        ∧ decoded .hs (inState .sEn).hs.code.toNat = some .sEn)
      ∧ ((acts [.seq, .seq]).inputs = .seq :: [.seq]
        ∧ decoded .hs (acts [.seq, .seq]).hs.code.toNat = some .sIdle)
      ∧ ((acts [.hcmd 0x7FF#11]).idle = true ∧ (acts [.hcmd 0x7FF#11]).inputs = .hcmd 0x7FF#11 :: []
        ∧ decoded .cmd (0x7FF#11).toNat = some .reservedOp7)
      ∧ ((acts [.rom 0xFF#8]).inputs = .rom 0xFF#8 :: []
        ∧ decoded .dr (0xFF#8).toNat = some (.keydecMiss 0b1111#4 0b1111#4))
      ∧ ((acts [.invoke]).inputs = .invoke :: [] ∧ (acts [.invoke]).invokeEnabled = true) := by
  decide
theorem witness_FetchWordRunsTableWord :
    (decodeTableWord 3 7 = some .sEn ∧ tableFormat 3 7 = .hs)
      ∧ (decodeTableWord 8 8 = some (.keydecMiss 0#4 8#4) ∧ tableFormat 8 8 = .dr)
      ∧ (decodeTableWord 16 0x7FF = some .reservedOp7 ∧ tableFormat 16 0x7FF = .cmd) := by decide
theorem witness_DecodeEncodeRoundTrip : Instr.wf (.keydecMiss 0#4 0#4) = true := by decide
theorem witness_EncodeKeepsUsedBits :
    decoded .cmd 0x7FF = some .reservedOp7 ∧ decoded .dr 0xFF = some (.keydecMiss 15#4 15#4)
      ∧ decoded .hs 7 = some .sEn := by decide
theorem witness_op_fields :
    CmdWord.op 0x0FF#11 = 0#3 ∧ CmdWord.op 0x1FF#11 = 1#3 ∧ CmdWord.op 0x2FF#11 = 2#3
      ∧ CmdWord.op 0x3FF#11 = 3#3 ∧ CmdWord.op 0x4FF#11 = 4#3 ∧ CmdWord.op 0x5FF#11 = 5#3
      ∧ CmdWord.op 0x6FF#11 = 6#3 ∧ CmdWord.op 0x700#11 = 7#3 := by decide
theorem witness_WrcolWritesColumns : CmdWord.op 0x00F#11 = 0#3 := by decide
theorem witness_RdcmbReadsRowsAndColumns : CmdWord.op 0x1FF#11 = 1#3 := by decide
theorem witness_WroutWritesOutputLatch : CmdWord.op 0x21F#11 = 2#3 := by decide
theorem witness_IstatReturnsWholeStatus : CmdWord.op 0x300#11 = 3#3 := by decide
theorem witness_IdisClearsEnableBits :
    CmdWord.op 0x480#11 = 4#3 ∧ (0x80#8 &&& maskBits eightChannels).getLsbD eightChannels.ch = true := by
  decide
theorem witness_IclrClearsStatusBits :
    CmdWord.op 0x580#11 = 5#3 ∧ (0x80#8 &&& maskBits eightChannels).getLsbD eightChannels.ch = true := by
  decide
theorem witness_IenSetsEnableBits :
    CmdWord.op 0x601#11 = 6#3
      ∧ (0x01#8 &&& maskBits Config.default).getLsbD Config.default.ch = true := by decide
theorem witness_ReservedOpIsRefused :
    ((acts [.hcmd 0x700#11]).rst = false ∧ (acts [.hcmd 0x700#11]).idle = true
        ∧ (acts [.hcmd 0x700#11]).inputs = .hcmd 0x700#11 :: [] ∧ CmdWord.op 0x700#11 = 7#3)
      ∧ ((acts [.hcmd 0x6FF#11]).rst = false ∧ (acts [.hcmd 0x6FF#11]).idle = true
        ∧ (acts [.hcmd 0x6FF#11]).inputs = .hcmd 0x6FF#11 :: [] ∧ CmdWord.op 0x6FF#11 ≠ 7#3)
      ∧ sequencerWord (inState .sEn) = some 0x601#11 := by decide
theorem witness_HostCommandsActWhenIdle :
    ((inState .sRd).rst = false ∧ (inState .sRd).hs ≠ .sIdle
        ∧ ({ inState .sRd with inputs := [.hcmd 0x300#11] } : State).inputs = .hcmd 0x300#11 :: [])
      ∧ [0x0FF#11, 0x1FF#11, 0x2FF#11, 0x3FF#11, 0x4FF#11, 0x5FF#11, 0x6FF#11].map CmdWord.op
        = [0#3, 1#3, 2#3, 3#3, 4#3, 5#3, 6#3]
      ∧ ((acts [.hcmd 0x6FF#11]).rst = false ∧ (acts [.hcmd 0x6FF#11]).hs = .sIdle) := by decide
theorem witness_RomHoldsTheLookupTable :
    0xFF#8 ∉ ([0xE7#8, 0x77#8, 0x7B#8, 0x7D#8, 0xB7#8, 0xBB#8, 0xBD#8, 0xD7#8,
      0xDB#8, 0xDD#8, 0x7E#8, 0xBE#8, 0xDE#8, 0xEE#8, 0xED#8, 0xEB#8] : List RomAddr) := by decide
theorem witness_MatrixLayoutMatchesRom : keyAt 0 3 = keyAt 0 3 := by decide
theorem witness_DecoderIsInjectiveOnHits :
    (romRead (romAddr 0b1110#4 0b0111#4)).getLsbD 4 = false
      ∧ oneLow 0b0111#4 = true ∧ oneLow 0b1110#4 = true := by decide
theorem witness_KeydecRowsRunInEveryState : Instr.wf (.keydecMiss 0b1111#4 0b1110#4) = true := by
  decide
theorem witness_SIdleWaitsForInvoke :
    State.reset.invokeI = false ∧ ({ State.reset with invokeI := true } : State).invokeI = true
      ∧ ((inState .sCol).rst = false ∧ (inState .sCol).hs ≠ .sIdle
        ∧ ({ inState .sCol with inputs := [.invoke] } : State).inputs = .invoke :: [])
      ∧ ((acts [.hcmd 0x000#11]).rst = false ∧ (acts [.hcmd 0x000#11]).hs = .sIdle
        ∧ (acts [.hcmd 0x000#11]).inputs = .hcmd 0x000#11 :: []) := by decide
theorem witness_SDisDisables :
    ({ inState .sDis with cfg := eightChannels } : State).cfg.wf = true
      ∧ (inState .sDis).hs = .sDis := by decide
theorem witness_SChkConfirmsOrReturnsEarly :
    (inState .sChk).cfg.wf = true ∧ (inState .sChk).hs = .sChk
      ∧ ({ inState .sChk with isr := 1#8 } : State).isr.getLsbD Config.default.ch = true
      ∧ (inState .sChk).isr.getLsbD Config.default.ch = false := by decide
theorem witness_SColDrivesThePattern : (inState .sCol).hs = .sCol := by decide
theorem witness_SRdReadsDecodesAndDecides :
    (romRead (romAddr (rowSample { inState .sRd with rows := [0b0111#4] }) 0b1110#4)).getLsbD 4 = false
      ∧ (romRead (romAddr (rowSample { inState .sRd with rows := [0b1111#4] }) 0b1110#4)).getLsbD 4
        = true
      ∧ ({ inState .sRd with k := 3#2 } : State).k = 3#2 ∧ (inState .sRd).k ≠ 3#2
      ∧ (inState .sRd).hs = .sRd ∧ (inState .sRd).p = 0b1110#4 := by decide
theorem witness_SOutWritesTheResult :
    (inState .sOut).res.getLsbD 4 = true ∧ (inState .sOut).res = 0x10#5
      ∧ (inState .sOut).cfg.nokeyOut = 0x10#5 ∧ (inState .sOut).hs = .sOut := by decide
theorem witness_SClrClearsTheFlag :
    (inState .sClr).cfg.wf = true ∧ (inState .sClr).hs = .sClr := by decide
theorem witness_SEnEnablesAndReturns :
    ({ inState .sEn with cfg := twoChannels } : State).cfg.wf = true ∧ (inState .sEn).hs = .sEn := by
  decide
theorem witness_SequencerStepPerformsItsWord :
    (inState .sOut).cfg.wf = true ∧ sequencerWord (inState .sOut) = some 0x210#11
      ∧ sequencerWord (inState .sRd) = some 0x100#11 := by decide
/-- Key (3, 3) held alone, in a driven and in an undriven column; and no key held. -/
theorem witness_NominalKeypadRows :
    ((holding [] State.reset).cfg.rowsEnv = .keypad
        ∧ ∀ r c : Line, keyHeld (holding [] State.reset).held r c = false)
      ∧ ((holding [(3, 3)] State.reset).cfg.rowsEnv = .keypad
        ∧ (holding [(3, 3)] State.reset).OnlyKeyHeld 3 3
        ∧ (holding [(3, 3)] State.reset).col.getLsbD 3 = true)
      ∧ ((holding [(3, 3)] { State.reset with col := 0b0111#4 }).OnlyKeyHeld 3 3
        ∧ (holding [(3, 3)] { State.reset with col := 0b0111#4 }).col.getLsbD 3 = false) := by decide
theorem witness_RowOracleGivesOneElementPerRead :
    ({ State.reset with rows := [0b1111#4] } : State).cfg.rowsEnv = .free
      ∧ ({ State.reset with rows := [0b1111#4] } : State).rows = 0b1111#4 :: [] := by decide
theorem witness_EdgeLatchesStatus :
    ({ acts [.edge 0x80#8] with cfg := eightChannels } : State).rst = false
      ∧ ({ acts [.edge 0x80#8] with cfg := eightChannels } : State).inputs = .edge 0x80#8 :: []
      ∧ 0x80#8 &&& maskBits eightChannels = 0x80#8 ∧ 0x80#8 ≠ 0#8 := by decide
theorem witness_InvokeEntersTheHandler :
    ((acts [.invoke]).rst = false ∧ (acts [.invoke]).inputs = .invoke :: []
        ∧ (acts [.invoke]).hs = .sIdle ∧ (acts [.invoke]).cfg.invokePolicy = .free)
      ∧ (({ acts [.invoke] with cfg := gatedConfig, ier := 1#8, isr := 1#8 } : State).ie = true
        ∧ ({ acts [.invoke] with cfg := gatedConfig, ier := 1#8, isr := 1#8 } : State).is = true)
      ∧ (({ acts [.invoke] with cfg := gatedConfig, isr := 1#8 } : State).cfg.invokePolicy = .gated
        ∧ ¬(({ acts [.invoke] with cfg := gatedConfig, isr := 1#8 } : State).ie = true
          ∧ ({ acts [.invoke] with cfg := gatedConfig, isr := 1#8 } : State).is = true))
      ∧ ({ inState .sEn with inputs := [.invoke] } : State).hs ≠ .sIdle := by decide
theorem witness_KeyEventsChangeOnlyTheKeys :
    ((holding [] (acts [.keyDown 3 3])).inputs
          = (if true then Input.keyDown 3 3 else Input.keyUp 3 3) :: []
        ∧ (holding [] (acts [.keyDown 3 3])).cfg.rowsEnv = .keypad)
      ∧ ((acts [.keyUp 0 0]).inputs = (if false then Input.keyDown 0 0 else Input.keyUp 0 0) :: []
        ∧ (acts [.keyUp 0 0]).cfg.rowsEnv = .free) := by decide
theorem witness_HostReadsOutputAnyTime :
    (acts [.hRdout]).inputs = .hRdout :: [] ∧ (acts [.hRdout]).outv = false
      ∧ ({ acts [.hRdout] with outv := true } : State).outv = true := by decide
theorem witness_ResetFromAnyState :
    ({ inState .sRd with inputs := [.rst true, .rst false] } : State).inputs
      = .rst true :: [.rst false] := by decide
theorem witness_ResetHeldIgnoresInputs :
    (({ State.reset with rst := true } : State).rst = true
        ∧ ({ State.reset with rst := true } : State).inputs = [])
      ∧ ({ acts [.edge 1#8] with rst := true } : State).inputs = .edge 1#8 :: []
      ∧ ({ acts [.rst true] with rst := true } : State).inputs = .rst true :: []
      ∧ ({ acts [.rst false] with rst := true } : State).inputs = .rst false :: [] := by decide
/-- A step in each of the three states, S_CHK confirming among them, and a refused one. -/
theorem witness_SweepRegistersUnreadBeforeTheirWrite :
    [State.reset, inState .sDis, inState .sChk, { inState .sChk with isr := 1#8 }].map
        (fun s => (nextOf (step s)).map (·.hs))
      = [some .sIdle, some .sChk, some .sIdle, some .sCol]
    ∧ refusalOf (step { inState .sDis with inputs := [.hcmd 0#11] }) = some .hostWhileBusy
    ∧ confirmFlag Config.default ({ inState .sChk with isr := 1#8 } : State).isr = true := by decide
theorem witness_BootDutiesArmTheBlock :
    (acts (bootDuties Config.default 0#4 0x10#5)).cfg.wf = true
      ∧ (acts (bootDuties Config.default 0#4 0x10#5)).rst = false
      ∧ (acts (bootDuties Config.default 0#4 0x10#5)).hs = .sIdle
      ∧ (acts (bootDuties Config.default 0#4 0x10#5)).inputs
        = bootDuties (acts (bootDuties Config.default 0#4 0x10#5)).cfg 0#4 0x10#5 ++ [] := by decide
/-- A state in the middle of a sweep that meets the invariant, and its next. -/
theorem witness_StepKeepsInvariant :
    ({ inState .sRd with col := 0b1110#4, isr := 1#8, rows := [0b0111#4] } : State).Inv
      ∧ (nextOf (step { inState .sRd with col := 0b1110#4, isr := 1#8, rows := [0b0111#4] })).isSome
        = true := by decide
/-- The trace of an invocation that has confirmed, and its next. -/
theorem witness_StepKeepsTraceProtocol :
    let s : State := { inState .sCol with
      isr := 1#8
      trace := [.reset, .edge 1#8, .invoke, .op .sequencer (.idis 1#8), .op .sequencer (.istat 1#8)] }
    s.Inv ∧ s.TraceLegal ∧ (nextOf (step s)).isSome = true := by decide
theorem witness_StepKeepsGatedPending :
    let s : State := { inState .sChk with cfg := gatedConfig, isr := 1#8 }
    s.cfg.wf = true ∧ s.cfg.invokePolicy = .gated ∧ s.hs = .sChk ∧ s.GatedPending
      ∧ (nextOf (step s)).isSome = true ∧ (nextOf (exec .sChk s)).isSome = true := by decide
theorem witness_ConfigIsNeverWritten : (nextOf (step State.reset)).isSome = true := by decide
/-- One witness for each way the enable bit changes. -/
theorem witness_EnableBitWrittenOnlyAtEntryAndExit :
    let s : State := { inState .sDis with ier := 1#8 }
    (s.rst = false ∧ s.hs ≠ .sIdle ∧ s.inputs.head? ≠ some (.rst true)
        ∧ (nextOf (step s)).map (·.ier) = some 0#8 ∧ s.ier = 1#8)
      ∧ ((inState .sEn).rst = false ∧ (inState .sEn).hs ≠ .sIdle ∧ (inState .sEn).inputs = []
        ∧ (nextOf (step (inState .sEn))).map (·.ier) = some 1#8 ∧ (inState .sEn).ier = 0#8) := by
  decide
/-- One witness for each way the status bit is cleared. -/
theorem witness_StatusBitClearedOnlyByClear :
    [({ inState .sClr with isr := 1#8 } : State), { acts [.hcmd 0x501#11] with isr := 1#8 },
        { acts [.rst true] with isr := 1#8 }].all
      (fun s => s.cfg.wf && s.is && ((nextOf (step s)).map (·.is) == some false)) = true := by decide
theorem witness_OtherChannelsUntouchedInHandler :
    let s : State := { inState .sClr with cfg := twoChannels, isr := 3#8 }
    s.cfg.wf = true ∧ (s.rst = false ∧ s.inputs = []) ∧ (nextOf (step s)).isSome = true
      ∧ 0 ≠ s.cfg.ch := by decide
theorem witness_DeadStateIsStuckUnderGated :
    let s : State := { acts [.edge 1#8] with cfg := gatedConfig }
    s.cfg.invokePolicy = .gated ∧ s.dead = true ∧ s.inputs = .edge 1#8 :: []
      ∧ (nextOf (step s)).isSome = true := by decide
theorem witness_EdgeBeforeEnableIsServedLater :
    let s : State := { inState .sEn with cfg := eightChannels, inputs := [.edge 0x80#8, .seq] }
    (s.cfg.wf = true ∧ s.rst = false ∧ s.hs = .sEn ∧ s.inputs = .edge (chMask s.cfg) :: .seq :: [])
      ∧ ({ s with inputs := [.edge 0x80#8, .seq, .invoke] } : State).inputs
        = .edge (chMask s.cfg) :: .seq :: [.invoke] := by decide
theorem witness_OutLatchHasNoMeaningBeforeWrite :
    (State.reset.outv = false ∧ (nextOf (step State.reset)).isSome = true)
      ∧ ((inState .sOut).outv = false ∧ (nextOf (step (inState .sOut))).map (·.outv) = some true)
      ∧ ((acts [.hcmd 0x7FF#11]).outv = false
        ∧ refusalOf (step (acts [.hcmd 0x7FF#11])) = some .reservedOp) := by decide
theorem witness_SweepIsFirstMatch :
    ({ State.reset with rows := [0b1111#4, 0b1111#4, 0b1111#4, 0b1110#4] } : State).cfg.rowsEnv = .free
      ∧ ({ State.reset with rows := [0b1111#4, 0b1111#4, 0b1111#4, 0b1110#4] } : State).rows
        = 0b1111#4 :: 0b1111#4 :: 0b1111#4 :: 0b1110#4 :: [] := by decide
theorem witness_InvocationRefinesHandler :
    (inState .sDis).rst = false ∧ (inState .sDis).hs = .sDis ∧ (inState .sDis).inputs = [] := by decide
theorem witness_HandlerRunsToCompletion :
    ({ inState .sCol with isr := 1#8 } : State).Inv ∧ (inState .sCol).rst = false
      ∧ (inState .sCol).hs ≠ .sIdle ∧ (inState .sCol).inputs = [] := by decide
theorem witness_SingleHeldKeyIsReported :
    let s := holding [(0, 3)] { inState .sDis with isr := 1#8 }
    s.cfg.wf = true ∧ s.cfg.rowsEnv = .keypad ∧ s.OnlyKeyHeld 0 3 ∧ s.rst = false ∧ s.hs = .sDis
      ∧ s.is = true ∧ s.inputs = [] := by decide
theorem witness_NoKeyHeldWritesNoKeyValue :
    let s := holding [] { inState .sDis with isr := 1#8 }
    s.cfg.wf = true ∧ s.cfg.rowsEnv = .keypad ∧ (∀ r c : Line, keyHeld s.held r c = false)
      ∧ s.rst = false ∧ s.hs = .sDis ∧ s.is = true ∧ s.inputs = [] := by decide
/-- Keys 9 and 2 held; key 4 alone in its column behind the pair 14 and 9; that pair alone. -/
theorem witness_KeypadSweepReportsFirstSoleKey :
    (let s := holding [(1, 1), (3, 2)] State.reset
     s.cfg.rowsEnv = .keypad ∧ s.SoleKeyOf 1 1 ∧ ∀ r' c' : Line, c' < 1 → ¬ s.SoleKeyOf r' c')
    ∧ (let s := holding [(0, 1), (1, 1), (2, 3)] State.reset
       s.cfg.rowsEnv = .keypad ∧ s.SoleKeyOf 2 3 ∧ ∀ r' c' : Line, c' < 3 → ¬ s.SoleKeyOf r' c')
    ∧ (let s := holding [(0, 1), (1, 1)] State.reset
       s.cfg.rowsEnv = .keypad ∧ ∀ r c : Line, ¬ s.SoleKeyOf r c) := by decide
theorem witness_InvocationWithSeveralKeysHeld :
    (let s := holding [(1, 0), (1, 2)] { inState .sDis with isr := 1#8 }
     s.cfg.wf = true ∧ s.cfg.rowsEnv = .keypad ∧ s.rst = false ∧ s.hs = .sDis ∧ s.is = true
        ∧ s.inputs = [] ∧ s.SoleKeyOf 1 0 ∧ ∀ r' c' : Line, c' < 0 → ¬ s.SoleKeyOf r' c')
    ∧ (let s := holding [(0, 0), (1, 0), (2, 0), (3, 0)] { inState .sDis with isr := 1#8 }
       s.cfg.wf = true ∧ s.cfg.rowsEnv = .keypad ∧ s.rst = false ∧ s.hs = .sDis ∧ s.is = true
        ∧ s.inputs = [] ∧ ∀ r c : Line, ¬ s.SoleKeyOf r c) := by decide
theorem witness_SpuriousInvocationLeavesOnlyDisable :
    (acts [.invoke]).cfg.wf = true ∧ (acts [.invoke]).cfg.invokePolicy = .free
      ∧ (acts [.invoke]).rst = false ∧ (acts [.invoke]).hs = .sIdle ∧ (acts [.invoke]).is = false
      ∧ (acts [.invoke]).inputs = [.invoke] := by decide
theorem witness_TraceOnlyGrowsButAtReset :
    (acts [.edge 1#8]).inputs.head? ≠ some (.rst true)
      ∧ (nextOf (step (acts [.edge 1#8]))).isSome = true := by decide

end Sys2Proof.Tests
end

section
/-! SUPPORT. The frame of the configuration (R9, log 1): no shared operation, no instruction and no act of
the environment writes `cfg`. -/

namespace Sys2Proof.Machine

section Frame

variable (s : State)

@[simp] theorem opWrcol_cfg (who : Issuer) (p : Nibble) : (opWrcol who p s).cfg = s.cfg := rfl
@[simp] theorem opWrout_cfg (who : Issuer) (w : OutWord) : (opWrout who w s).cfg = s.cfg := rfl
@[simp] theorem opIdis_cfg (who : Issuer) (m : Mask) : (opIdis who m s).cfg = s.cfg := rfl
@[simp] theorem opIclr_cfg (who : Issuer) (m : Mask) : (opIclr who m s).cfg = s.cfg := rfl
@[simp] theorem opIen_cfg (who : Issuer) (m : Mask) : (opIen who m s).cfg = s.cfg := rfl
@[simp] theorem takeInvoke_cfg : (takeInvoke s).cfg = s.cfg := rfl
@[simp] theorem returnFromHandler_cfg (k : ReturnKind) : (returnFromHandler k s).cfg = s.cfg := rfl
@[simp] theorem envKeyDown_cfg (r c : Line) : (envKeyDown r c s).cfg = s.cfg := rfl
@[simp] theorem envKeyUp_cfg (r c : Line) : (envKeyUp r c s).cfg = s.cfg := rfl
@[simp] theorem envReset_cfg : (envReset s).cfg = s.cfg := rfl

@[simp] theorem opRdcmb_cfg (who : Issuer) : (opRdcmb who s).cfg = s.cfg := by
  rw [opRdcmb_eq]

@[simp] theorem opIstat_cfg (who : Issuer) : (opIstat who s).cfg = s.cfg := by
  rw [opIstat_eq]

@[simp] theorem opScanRead_cfg : (opScanRead s).cfg = s.cfg := by
  rw [opScanRead_eq]

@[simp] theorem envEdge_cfg (m : Mask) : (envEdge m s).cfg = s.cfg := by
  obtain ⟨-, h⟩ | ⟨-, h⟩ := envEdge_cases s m <;> rw [h]

@[simp] theorem envRdout_cfg : (envRdout s).cfg = s.cfg := by
  unfold envRdout
  split <;> rfl

/-- The rows with a branch are named; every other row runs the same operations in every state. -/
theorem exec_keeps_cfg (i : Instr) (t : State) (h : exec i s = .next t) : t.cfg = s.cfg := by
  cases i
  case reservedOp7 => cases h
  case sIdle =>
    cases h
    split <;> simp
  case sChk =>
    cases h
    split <;> simp
  case sRd =>
    cases h
    split
    · simp
    · split <;> simp
  all_goals
    cases h
    simp

end Frame

/-- Settles O44: by the cases of a step; those that run an instruction rest on `exec_keeps_cfg`, the others
on the frame of the act. -/
theorem configIsNeverWritten : Obligations.ConfigIsNeverWritten := by
  intro s t h
  cases step_case s t h with
  | still => simp
  | invokeBusy => simp
  | seq _ _ _ he => exact (exec_keeps_cfg _ _ _ he).trans s.takeAct_cfg
  | host _ _ _ _ _ he => exact (exec_keeps_cfg _ _ _ he).trans s.takeAct_cfg
  | rom _ _ _ he => exact (exec_keeps_cfg _ _ _ he).trans s.takeAct_cfg
  | edge => simp
  | invoke => simp
  | keyDown => simp
  | keyUp => simp
  | hRdout => simp
  | rstHigh => simp
  | rstLow => simp

end Sys2Proof.Machine
end

section
/-! SUPPORT. IER (R24) and the trace (R35) under each operation, the equations of the operations and rows
that branch, and which act is next. -/

namespace Sys2Proof.Machine

section EnableFrame

variable (s : State)

@[simp] theorem opWrcol_ier (who : Issuer) (p : Nibble) : (opWrcol who p s).ier = s.ier := rfl
@[simp] theorem opWrout_ier (who : Issuer) (w : OutWord) : (opWrout who w s).ier = s.ier := rfl
@[simp] theorem opIclr_ier (who : Issuer) (m : Mask) : (opIclr who m s).ier = s.ier := rfl
@[simp] theorem opIdis_ier (who : Issuer) (m : Mask) :
    (opIdis who m s).ier = s.ier &&& ~~~m := rfl
@[simp] theorem opIen_ier (who : Issuer) (m : Mask) : (opIen who m s).ier = s.ier ||| m := rfl
@[simp] theorem takeInvoke_ier : (takeInvoke s).ier = s.ier := rfl
@[simp] theorem returnFromHandler_ier (k : ReturnKind) :
    (returnFromHandler k s).ier = s.ier := rfl
@[simp] theorem envKeyDown_ier (r c : Line) : (envKeyDown r c s).ier = s.ier := rfl
@[simp] theorem envKeyUp_ier (r c : Line) : (envKeyUp r c s).ier = s.ier := rfl

@[simp] theorem opIstat_ier (who : Issuer) : (opIstat who s).ier = s.ier := by
  rw [opIstat_eq]

@[simp] theorem opScanRead_ier : (opScanRead s).ier = s.ier := by
  rw [opScanRead_eq]

@[simp] theorem envEdge_ier (m : Mask) : (envEdge m s).ier = s.ier := by
  obtain ⟨-, h⟩ | ⟨-, h⟩ := envEdge_cases s m <;> rw [h]

@[simp] theorem envRdout_ier : (envRdout s).ier = s.ier := by
  unfold envRdout
  split <;> rfl

end EnableFrame

section TraceOfOperations

variable (s : State)

@[simp] theorem opWrcol_trace (who : Issuer) (p : Nibble) :
    (opWrcol who p s).trace = s.trace ++ [.op who (.wrcol p)] := rfl
@[simp] theorem opWrout_trace (who : Issuer) (w : OutWord) :
    (opWrout who w s).trace = s.trace ++ [.op who (.wrout w)] := rfl
@[simp] theorem opIdis_trace (who : Issuer) (m : Mask) :
    (opIdis who m s).trace = s.trace ++ [.op who (.idis m)] := rfl
@[simp] theorem opIclr_trace (who : Issuer) (m : Mask) :
    (opIclr who m s).trace = s.trace ++ [.op who (.iclr m)] := rfl
@[simp] theorem opIen_trace (who : Issuer) (m : Mask) :
    (opIen who m s).trace = s.trace ++ [.op who (.ien m)] := rfl
@[simp] theorem takeInvoke_trace : (takeInvoke s).trace = s.trace ++ [.invoke] := rfl
@[simp] theorem returnFromHandler_trace (k : ReturnKind) :
    (returnFromHandler k s).trace = s.trace ++ [.ret k] := rfl
@[simp] theorem envKeyDown_trace (r c : Line) :
    (envKeyDown r c s).trace = s.trace ++ [.keyDown r c] := rfl
@[simp] theorem envKeyUp_trace (r c : Line) :
    (envKeyUp r c s).trace = s.trace ++ [.keyUp r c] := rfl

@[simp] theorem opIstat_trace (who : Issuer) :
    (opIstat who s).trace = s.trace ++ [.op who (.istat s.isr)] := by
  rw [opIstat_eq]

@[simp] theorem opRdcmb_trace (who : Issuer) :
    (opRdcmb who s).trace = s.trace ++ [.op who (.rdcmb (combinedWord s))] := by
  rw [opRdcmb_eq]

@[simp] theorem opScanRead_trace :
    (opScanRead s).trace = s.trace ++ [.op .sequencer (.rdcmb (combinedWord s))] := by
  rw [opScanRead_eq]

@[simp] theorem envRdout_trace : (envRdout s).trace = s.trace ++ [.hRdout (outRead s)] := by
  unfold envRdout
  split <;> rfl

end TraceOfOperations

section OtherFrames

variable (s : State)

@[simp] theorem opScanRead_outv : (opScanRead s).outv = s.outv := by
  rw [opScanRead_eq]

@[simp] theorem envRdout_outv : (envRdout s).outv = s.outv := by
  unfold envRdout
  split <;> rfl

@[simp] theorem envRdout_hs : (envRdout s).hs = s.hs := by
  unfold envRdout
  split <;> rfl

end OtherFrames

section Rows

variable (s : State)

/-- The nominal keypad is read without a trace (R184). -/
theorem consumeRow_keypad (he : s.cfg.rowsEnv = .keypad) : consumeRow s = s := by
  unfold consumeRow
  rw [he]

/-- A listed sample is used by its read (R183). -/
theorem consumeRow_free_cons (r : Nibble) (rs : List Nibble) (he : s.cfg.rowsEnv = .free)
    (hl : s.rows = r :: rs) : consumeRow s = { s with rows := rs } := by
  unfold consumeRow
  rw [he, hl]

/-- With no sample listed a read uses a free value (R183, log 3). -/
theorem consumeRow_free_nil (he : s.cfg.rowsEnv = .free) (hl : s.rows = []) :
    consumeRow s = { s with free := s.free + 1 } := by
  unfold consumeRow
  rw [he, hl]

/-- A sample of the sink pins once the latch is written (R193). -/
theorem envRdout_written (h : s.outv = true) : envRdout s = s.emit (.hRdout s.out) := by
  unfold envRdout outRead
  rw [if_pos h, if_pos h]

/-- A sample of the sink pins before the first write uses a free value (R193, U3, log 4). -/
theorem envRdout_unwritten (h : s.outv = false) :
    envRdout s = { s with free := s.free + 1 }.emit (.hRdout (Config.freeOut s.free)) := by
  unfold envRdout outRead
  simp only [h, Bool.false_eq_true, if_false]

/-- S_CHK with the flag up starts a sweep (R152). -/
theorem exec_sChk_confirmed (h : confirmFlag s.cfg s.isr = true) :
    exec .sChk s = .next ((opColInit (opIstat .sequencer s)).goto .sCol) :=
  congrArg Host.Outcome.next (if_pos h)

/-- S_CHK with the flag down leaves by the early exit (R152). -/
theorem exec_sChk_early (h : confirmFlag s.cfg s.isr ≠ true) :
    exec .sChk s = .next (returnFromHandler .early (opIstat .sequencer s)) :=
  congrArg Host.Outcome.next (if_neg h)

/-- S_RD that ends the sweep: a hit or the fourth miss (R154). -/
theorem exec_sRd_last (h : hitFlag (opScanRead s).res = true ∨ s.k = 3#2) :
    exec .sRd s = .next ((opScanRead s).goto .sOut) := by
  unfold exec execSRd
  by_cases hit : hitFlag (opScanRead s).res = true
  · simp only [if_pos hit]
  · simp only [if_neg hit, if_pos (h.resolve_left hit)]

/-- S_RD that goes on to the next column (R154). -/
theorem exec_sRd_advance (h : ¬(hitFlag (opScanRead s).res = true ∨ s.k = 3#2)) :
    exec .sRd s = .next ((opNextCol (opScanRead s)).goto .sCol) := by
  obtain ⟨hit, hk⟩ := not_or.mp h
  unfold exec execSRd
  simp only [if_neg hit, if_neg hk]

/-- S_IDLE without a pulse waits (R150). -/
theorem exec_sIdle_waits (h : s.invokeI = false) : exec .sIdle s = .next s := by
  unfold exec execSIdle
  simp only [h, Bool.false_eq_true, if_false]

/-- An INVOKE that finds S_IDLE takes the interrupt, and the pulse is over (R150). -/
theorem exec_sIdle_invoked (hp : s.invokeI = false) (hb : ¬s.busy = true) :
    exec (decodeState s.hs.code) { s with invokeI := true } = .next (takeInvoke s) := by
  have hh : s.hs = .sIdle := by simpa [State.busy, State.idle] using hb
  rw [decodeState_code, hh]
  change Host.Outcome.next (takeInvoke { s with invokeI := false }) = .next (takeInvoke s)
  rw [← hp]

/-- What holds of the eight readings of a command word holds of every word's (R79, R81). -/
theorem decodeCmd_elim {motive : Instr → Prop} (wrcol : ∀ p, motive (.wrcol p))
    (rdcmb : motive .rdcmb) (wrout : ∀ v, motive (.wrout v)) (istat : motive .istat)
    (idis : ∀ a, motive (.idis a)) (iclr : ∀ a, motive (.iclr a)) (ien : ∀ a, motive (.ien a))
    (reservedOp7 : motive .reservedOp7) (w : CmdWord) : motive (decodeCmd w) := by
  unfold decodeCmd
  split
  · exact wrcol _
  · exact rdcmb
  · exact wrout _
  · exact istat
  · exact idis _
  · exact iclr _
  · exact ien _
  · exact reservedOp7

/-- The sequencer's turn is next when its act is and `rst` is low. -/
theorem sequencerNext_of_nextAct (hr : s.rst = false) (hi : s.nextAct = .seq) :
    s.sequencerNext := by
  refine ⟨hr, ?_⟩
  cases hl : s.inputs with
  | nil => exact .inl rfl
  | cons i rest => exact .inr ⟨rest, by rw [← hi, State.nextAct_cons s i rest hl]⟩

theorem nextAct_ne_rstHigh (h : ∀ rest, s.inputs ≠ .rst true :: rest) :
    s.nextAct ≠ .rst true := by
  cases hl : s.inputs with
  | nil => simp [State.nextAct, hl]
  | cons i rest =>
    rw [State.nextAct_cons s i rest hl]
    rintro rfl
    exact h rest hl

end Rows

end Sys2Proof.Machine
end

section
/-! PROOFS. Where `IER` changes inside an invocation (R31). -/

namespace Sys2Proof.Machine

/-- The steps of the sequencer that touch `IER`: S_DIS and S_EN (R151, R157). -/
theorem exec_stateInstr_ier (s t : State) (h : HState) (he : exec (stateInstr h) s = .next t) :
    t.ier = s.ier ∨ (h = .sDis ∧ t.ier = s.ier &&& ~~~chMask s.cfg)
      ∨ (h = .sEn ∧ t.ier = s.ier ||| chMask s.cfg) := by
  cases h with
  | sDis =>
    cases he
    exact .inr (.inl ⟨rfl, by simp⟩)
  | sEn =>
    cases he
    exact .inr (.inr ⟨rfl, by simp⟩)
  | sIdle =>
    cases he
    split <;> exact .inl (by simp)
  | sChk =>
    cases he
    split <;> exact .inl (by simp)
  | sRd =>
    cases he
    split
    · exact .inl (by simp)
    · split <;> exact .inl (by simp)
  | sCol | sOut | sClr =>
    cases he
    exact .inl (by simp)

/-- Settles O45: of the cases of a step, the host's needs an idle block, reset is excluded, and the
environment's acts leave `IER` alone; the sequencer's is `exec_stateInstr_ier`. -/
theorem enableBitWrittenOnlyAtEntryAndExit : Obligations.EnableBitWrittenOnlyAtEntryAndExit := by
  intro s t hr hs hin hstep hne
  cases step_case s t hstep with
  | seq _ _ hi he =>
    exact ⟨sequencerNext_of_nextAct s hr hi,
      (exec_stateInstr_ier s.takeAct t s.hs he).resolve_left hne⟩
  | host _ _ _ _ hb _ => exact absurd (beq_iff_eq.mp hb) hs
  | rstHigh hi => exact absurd hi (nextAct_ne_rstHigh s hin)
  | rom a _ _ he =>
    rw [exec_decodeRom] at he
    cases he
    exact absurd rfl hne
  | still | invokeBusy | invoke | rstLow | keyDown | keyUp => exact absurd rfl hne
  | edge m => exact absurd (envEdge_ier s.takeAct m) hne
  | hRdout => exact absurd (envRdout_ier s.takeAct) hne

end Sys2Proof.Machine
end

section
/-! PROOFS. The trace is appended to, an act at a time (R35, R109). -/

namespace Sys2Proof.Machine

/-- `new` is `old` followed by what one step may record: at most two events, at most one of them a
performed operation. -/
def TraceGrows (old new : List Event) : Prop :=
  ∃ es : List Event, new = old ++ es ∧ es.length ≤ 2 ∧ (es.filter Event.isOperation).length ≤ 1

theorem TraceGrows.refl (old : List Event) : TraceGrows old old :=
  ⟨[], (List.append_nil old).symm, by decide, by decide⟩

theorem TraceGrows.event (old : List Event) (e : Event) : TraceGrows old (old ++ [e]) :=
  ⟨[e], rfl, by simp, List.length_filter_le _ _⟩

/-- An operation and the RETURN that ends the invocation (R152, R157). -/
theorem TraceGrows.event_ret (old : List Event) (e : Event) (k : ReturnKind) :
    TraceGrows old (old ++ [e] ++ [.ret k]) := by
  refine ⟨[e, .ret k], by simp, le_rfl, ?_⟩
  have hk : Event.isOperation (.ret k) = false := rfl
  calc ([e, .ret k].filter Event.isOperation).length
      = ([e].filter Event.isOperation).length := by simp [List.filter_cons, hk]
    _ ≤ 1 := List.length_filter_le _ _

/-- A command records its operation; operation code 7 has no step (R107, R109). -/
theorem exec_decodeCmd_traceGrows (w : CmdWord) (s t : State)
    (he : exec (decodeCmd w) s = .next t) : TraceGrows s.trace t.trace := by
  revert he
  refine decodeCmd_elim (motive := fun i => exec i s = .next t → TraceGrows s.trace t.trace)
    ?wrcol ?rdcmb ?wrout ?istat ?idis ?iclr ?ien ?reservedOp7 w
  case reservedOp7 => nofun
  case rdcmb =>
    rintro ⟨⟩
    rw [opRdcmb_trace]
    exact .event _ _
  case istat =>
    rintro ⟨⟩
    rw [opIstat_trace]
    exact .event _ _
  all_goals
    rintro - ⟨⟩
    exact .event _ _

/-- A state's step records its operation, and at the two exits the RETURN after it. -/
theorem exec_stateInstr_traceGrows (h : HState) (s t : State)
    (he : exec (stateInstr h) s = .next t) : TraceGrows s.trace t.trace := by
  cases h with
  | sIdle =>
    cases he
    split
    · exact .event _ _
    · exact .refl _
  | sChk =>
    cases he
    split
    · simpa using TraceGrows.event s.trace (.op .sequencer (.istat s.isr))
    · simpa using TraceGrows.event_ret s.trace (.op .sequencer (.istat s.isr)) .early
  | sRd =>
    have grows : TraceGrows s.trace (opScanRead s).trace := by
      rw [opScanRead_trace]
      exact .event _ _
    cases he
    split
    · exact grows
    · split <;> exact grows
  | sEn =>
    cases he
    exact .event_ret _ _ _
  | sDis | sCol | sOut | sClr =>
    cases he
    exact .event _ _

/-- Settles O57: by the cases of a step; a reset is excluded, every other act records at most one event
but for the two exits of the handler. -/
theorem traceOnlyGrowsButAtReset : Obligations.TraceOnlyGrowsButAtReset := by
  intro s t hin hstep
  change TraceGrows s.trace t.trace
  cases step_case s t hstep with
  | seq _ _ _ he => exact exec_stateInstr_traceGrows s.hs s.takeAct t he
  | host w _ _ _ _ he => exact exec_decodeCmd_traceGrows w s.takeAct t he
  | rom a _ _ he =>
    rw [exec_decodeRom] at he
    cases he
    exact .refl _
  | edge m =>
    obtain ⟨-, h⟩ | ⟨-, h⟩ := envEdge_cases s.takeAct m <;> rw [h]
    · exact .refl _
    · exact .event _ _
  | hRdout =>
    rw [envRdout_trace]
    exact .event _ _
  | rstHigh hi => exact absurd hi (nextAct_ne_rstHigh s hin)
  | still | invokeBusy | rstLow => exact .refl _
  | invoke | keyDown | keyUp => exact .event _ _

end Sys2Proof.Machine
end

section
/-! SUPPORT. Two runs side by side that differ in `OUT`, `K`, `P` and `RES` only. No guard of a turn reads
these registers, so the two take the same turn; what is left to compare is what the act writes. -/

namespace Sys2Proof.Machine

/-- Both are the same refusal, or both are next states and these are related by `R`. -/
inductive SameOutcome (R : State → State → Prop) :
    Host.Outcome State Fault Refusal → Host.Outcome State Fault Refusal → Prop where
  | next (t u : State) (h : R t u) : SameOutcome R (.next t) (.next u)
  | refused (r : Refusal) : SameOutcome R (.refused r) (.refused r)

theorem SameOutcome.exists_next {R : State → State → Prop}
    {a b : Host.Outcome State Fault Refusal} {t : State} (h : SameOutcome R a b)
    (ha : a = .next t) : ∃ u, b = .next u ∧ R t u := by
  cases h with
  | next _ u hR =>
    cases ha
    exact ⟨u, rfl, hR⟩
  | refused => cases ha

theorem SameOutcome.eq_refused {R : State → State → Prop}
    {a b : Host.Outcome State Fault Refusal} {r : Refusal} (h : SameOutcome R a b)
    (ha : a = .refused r) : b = .refused r := by
  cases h with
  | next => cases ha
  | refused => exact ha

/-- `s` with the output latch and the sweep's registers changed. -/
def State.mapHidden (fo : OutWord → OutWord) (fk : BitVec 2 → BitVec 2) (fp : Nibble → Nibble)
    (fd : DecodeResult → DecodeResult) (s : State) : State :=
  { s with out := fo s.out, k := fk s.k, p := fp s.p, res := fd s.res }

section MapHidden

variable (fo : OutWord → OutWord) (fk : BitVec 2 → BitVec 2) (fp : Nibble → Nibble)
  (fd : DecodeResult → DecodeResult) (s : State)

theorem consumeRow_mapHidden :
    consumeRow (s.mapHidden fo fk fp fd) = (consumeRow s).mapHidden fo fk fp fd := by
  cases he : s.cfg.rowsEnv with
  | keypad => rw [consumeRow_keypad s he, consumeRow_keypad (s.mapHidden fo fk fp fd) he]
  | free =>
    cases hl : s.rows with
    | nil =>
      rw [consumeRow_free_nil s he hl, consumeRow_free_nil (s.mapHidden fo fk fp fd) he hl]
      rfl
    | cons r rs =>
      rw [consumeRow_free_cons s r rs he hl,
        consumeRow_free_cons (s.mapHidden fo fk fp fd) r rs he hl]
      rfl

theorem opRdcmb_mapHidden (who : Issuer) :
    opRdcmb who (s.mapHidden fo fk fp fd) = (opRdcmb who s).mapHidden fo fk fp fd := by
  rw [opRdcmb_eq, opRdcmb_eq, consumeRow_mapHidden]
  rfl

theorem opIstat_mapHidden (who : Issuer) :
    opIstat who (s.mapHidden fo fk fp fd) = (opIstat who s).mapHidden fo fk fp fd := by
  rw [opIstat_eq, opIstat_eq]
  rfl

theorem envEdge_mapHidden (m : Mask) :
    envEdge m (s.mapHidden fo fk fp fd) = (envEdge m s).mapHidden fo fk fp fd := by
  obtain ⟨h0, h⟩ | ⟨h0, h⟩ := envEdge_cases s m <;> rw [h]
  · exact if_pos h0
  · exact if_neg h0

/-- A command other than WROUT neither reads nor writes the hidden registers, nor `OUTV` and `HS`. -/
theorem exec_decodeCmd_mapHidden_same {Q : State → State → Prop} (w : CmdWord)
    (keep : ∀ t : State, t.outv = s.outv → t.hs = s.hs → Q t (t.mapHidden fo fk fp fd))
    (wrout : ∀ who v, Q (opWrout who v s) (opWrout who v (s.mapHidden fo fk fp fd))) :
    SameOutcome Q (exec (decodeCmd w) s) (exec (decodeCmd w) (s.mapHidden fo fk fp fd)) := by
  refine decodeCmd_elim
    (motive := fun i => SameOutcome Q (exec i s) (exec i (s.mapHidden fo fk fp fd)))
    ?wrcol ?rdcmb ?wrout ?istat ?idis ?iclr ?ien ?reservedOp7 w
  case reservedOp7 => exact .refused _
  case wrout => exact fun v => .next _ _ (wrout s.issuer v)
  case rdcmb =>
    refine .next _ _ ?_
    have hk := keep (opRdcmb s.issuer s) (by rw [opRdcmb_eq]) (by rw [opRdcmb_eq])
    rwa [← opRdcmb_mapHidden] at hk
  case istat =>
    refine .next _ _ ?_
    have hk := keep (opIstat s.issuer s) (by rw [opIstat_eq]) (by rw [opIstat_eq])
    rwa [← opIstat_mapHidden] at hk
  all_goals exact fun _ => .next _ _ (keep _ rfl rfl)

end MapHidden

/-- Both turns stop alike, settle in related states, or run one instruction to the same outcome. -/
inductive SameTurn (Q : State → State → Prop) : Turn → Turn → Prop where
  | run (i : Instr) (t u : State) (h : SameOutcome Q (exec i t) (exec i u)) :
      SameTurn Q (.run i t) (.run i u)
  | settled (t u : State) (h : Q t u) : SameTurn Q (.settled t) (.settled u)
  | stop (r : Refusal) : SameTurn Q (.stop r) (.stop r)

theorem SameTurn.step {Q : State → State → Prop} {s u : State}
    (h : SameTurn Q (nextTurn s) (nextTurn u)) : SameOutcome Q (step s) (step u) := by
  unfold Machine.step
  generalize nextTurn s = a at h
  generalize nextTurn u = b at h
  cases h with
  | run _ _ _ h => exact h
  | settled _ _ h => exact .next _ _ h
  | stop => exact .refused _

/-- Two turns with the same guard. -/
theorem SameTurn.ite {Q : State → State → Prop} {a b c d : Turn} (p : Prop) [Decidable p]
    (h₁ : p → SameTurn Q a c) (h₂ : ¬p → SameTurn Q b d) :
    SameTurn Q (if p then a else b) (if p then c else d) := by
  by_cases hp : p
  · rw [if_pos hp, if_pos hp]
    exact h₁ hp
  · rw [if_neg hp, if_neg hp]
    exact h₂ hp

/-- While `rst` is high an act is without effect, or what it is while `rst` is low (R241). -/
theorem turnInReset_cases (i : Input) :
    (∀ s, turnInReset i s = .settled s) ∨ ∀ s, turnInReset i s = turnRunning i s := by
  cases i with
  | seq | hcmd | edge | invoke => exact .inl fun _ => rfl
  | rom | keyDown | keyUp | hRdout | rst => exact .inr fun _ => rfl

section RelationalStep

variable {Q : State → State → Prop} (fo : OutWord → OutWord) (fk : BitVec 2 → BitVec 2)
  (fp : Nibble → Nibble) (fd : DecodeResult → DecodeResult) (s : State)

/-- Relational rule for a turn while `rst` is low. `keep` serves every act that writes neither `OUTV` nor
`HS`; the others have a premise each. -/
theorem turnRunning_mapHidden_same (i : Input)
    (keep : ∀ t : State, t.outv = s.outv → t.hs = s.hs → Q t (t.mapHidden fo fk fp fd))
    (wrout : ∀ who v, Q (opWrout who v s) (opWrout who v (s.mapHidden fo fk fp fd)))
    (hRdout : Q (envRdout s) (envRdout (s.mapHidden fo fk fp fd)))
    (invoke : Q (takeInvoke s) ((takeInvoke s).mapHidden fo fk fp fd))
    (reset : Q (envReset s) (envReset s))
    (seq : SameOutcome Q (exec (stateInstr s.hs) s)
      (exec (stateInstr s.hs) (s.mapHidden fo fk fp fd)))
    (hp : s.invokeI = false) :
    SameTurn Q (turnRunning i s) (turnRunning i (s.mapHidden fo fk fp fd)) := by
  have still : SameTurn Q (.settled s) (.settled (s.mapHidden fo fk fp fd)) :=
    .settled _ _ (keep s rfl rfl)
  cases i with
  | seq =>
    refine .run _ _ _ ?_
    rwa [decodeState_code]
  | hcmd w =>
    exact .ite (s.idle = true)
      (fun _ => .run _ _ _ (exec_decodeCmd_mapHidden_same fo fk fp fd s w keep wrout))
      (fun _ => .stop _)
  | rom a =>
    refine .run _ _ _ ?_
    rw [exec_decodeRom, exec_decodeRom]
    exact .next _ _ (keep (opKeydec a s) rfl rfl)
  | edge m =>
    refine .settled _ _ ?_
    rw [envEdge_mapHidden]
    obtain ⟨-, h⟩ | ⟨-, h⟩ := envEdge_cases s m <;> rw [h] <;> exact keep _ rfl rfl
  | invoke =>
    refine .ite (s.busy = true) (fun _ => still) fun hb =>
      .ite (s.invokeEnabled = true) (fun _ => .run _ _ _ ?_) (fun _ => .stop _)
    have taken : SameOutcome Q (.next (takeInvoke s))
        (.next (takeInvoke (s.mapHidden fo fk fp fd))) := .next _ _ invoke
    rwa [← exec_sIdle_invoked s hp hb,
      ← exec_sIdle_invoked (s.mapHidden fo fk fp fd) hp hb] at taken
  | keyDown r c | keyUp r c =>
    exact .ite (s.cfg.rowsEnv = .keypad) (fun _ => .settled _ _ (keep _ rfl rfl))
      (fun _ => .stop _)
  | hRdout => exact .settled _ _ hRdout
  | rst high =>
    cases high with
    | true => exact .settled _ _ reset
    | false => exact .settled _ _ (keep _ rfl rfl)

/-- Relational rule for a step: its premises are those of a turn, on the state with the act taken. -/
theorem step_mapHidden_same
    (keep : ∀ t : State, t.outv = s.outv → t.hs = s.hs → Q t (t.mapHidden fo fk fp fd))
    (wrout : ∀ who v,
      Q (opWrout who v s.takeAct) (opWrout who v (s.takeAct.mapHidden fo fk fp fd)))
    (hRdout : Q (envRdout s.takeAct) (envRdout (s.takeAct.mapHidden fo fk fp fd)))
    (invoke : Q (takeInvoke s.takeAct) ((takeInvoke s.takeAct).mapHidden fo fk fp fd))
    (reset : Q (envReset s.takeAct) (envReset s.takeAct))
    (seq : SameOutcome Q (exec (stateInstr s.hs) s.takeAct)
      (exec (stateInstr s.hs) (s.takeAct.mapHidden fo fk fp fd))) :
    SameOutcome Q (step s) (step (s.mapHidden fo fk fp fd)) := by
  have running : SameTurn Q (turnRunning s.nextAct s.takeAct)
      (turnRunning s.nextAct (s.takeAct.mapHidden fo fk fp fd)) :=
    turnRunning_mapHidden_same fo fk fp fd s.takeAct s.nextAct keep wrout hRdout invoke reset seq rfl
  refine SameTurn.step (SameTurn.ite (s.rst = true) (fun _ => ?_) (fun _ => running))
  obtain h | h := turnInReset_cases s.nextAct
  · have settled : SameTurn Q (.settled s.takeAct)
        (.settled (s.takeAct.mapHidden fo fk fp fd)) := .settled _ _ (keep _ rfl rfl)
    rwa [← h, ← h] at settled
  · rwa [← h, ← h] at running

end RelationalStep

end Sys2Proof.Machine
end

section
/-! PROOFS. The output latch before its first write is not read (R23, R36). -/

namespace Sys2Proof.Machine

/-- `u` is `t` but for a latch that is hidden in `t`. -/
def SameButHiddenOut (t u : State) : Prop :=
  ∃ o : OutWord, u = { t with out := o } ∧ (t.outv = true → o = t.out)

theorem SameButHiddenOut.refl (t : State) : SameButHiddenOut t t :=
  ⟨t.out, rfl, fun _ => rfl⟩

/-- While nothing has been written the latch may hold anything. -/
theorem SameButHiddenOut.of_unwritten (t : State) (v : OutWord) (hv : t.outv = false) :
    SameButHiddenOut t { t with out := v } :=
  ⟨v, rfl, fun h => absurd (hv.symm.trans h) Bool.false_ne_true⟩

/-- `s` with another value in the latch. -/
def State.mapOut (v : OutWord) (s : State) : State := s.mapHidden (fun _ => v) id id id

section HiddenOut

variable (s : State) (v : OutWord)

/-- A sample of the sink pins before the first write shows a free value (R193, U3). -/
theorem envRdout_mapOut (hv : s.outv = false) : envRdout (s.mapOut v) = (envRdout s).mapOut v := by
  rw [envRdout_unwritten s hv, envRdout_unwritten (s.mapOut v) hv]
  rfl

theorem opIstat_mapOut (who : Issuer) : opIstat who (s.mapOut v) = (opIstat who s).mapOut v :=
  opIstat_mapHidden _ _ _ _ s who

theorem opScanRead_mapOut : opScanRead (s.mapOut v) = (opScanRead s).mapOut v := by
  rw [opScanRead_eq, opScanRead_eq]
  unfold State.mapOut
  rw [consumeRow_mapHidden]
  rfl

/-- No step of the sequencer reads the latch, and S_OUT writes it (R155). -/
theorem exec_stateInstr_sameButHiddenOut (h : HState) (hv : s.outv = false)
    (hp : s.invokeI = false) :
    SameOutcome SameButHiddenOut (exec (stateInstr h) s) (exec (stateInstr h) (s.mapOut v)) := by
  cases h with
  | sIdle =>
    simp only [stateInstr]
    rw [exec_sIdle_waits s hp, exec_sIdle_waits (s.mapOut v) hp]
    exact .next _ _ (.of_unwritten s v hv)
  | sChk =>
    have hread : (opIstat .sequencer s).outv = false := hv
    have hsame := opIstat_mapOut s v .sequencer
    simp only [stateInstr]
    by_cases hc : confirmFlag s.cfg s.isr = true
    · rw [exec_sChk_confirmed s hc, exec_sChk_confirmed (s.mapOut v) hc, hsame]
      exact .next _ _ (.of_unwritten _ v hread)
    · rw [exec_sChk_early s hc, exec_sChk_early (s.mapOut v) hc, hsame]
      exact .next _ _ (.of_unwritten _ v hread)
  | sRd =>
    have hread : (opScanRead s).outv = false := (opScanRead_outv s).trans hv
    have hsame := opScanRead_mapOut s v
    simp only [stateInstr]
    by_cases hl : hitFlag (opScanRead s).res = true ∨ s.k = 3#2
    · rw [exec_sRd_last s hl, exec_sRd_last (s.mapOut v) (by rwa [hsame]), hsame]
      exact .next _ _ (.of_unwritten _ v hread)
    · rw [exec_sRd_advance s hl, exec_sRd_advance (s.mapOut v) (by rwa [hsame]), hsame]
      exact .next _ _ (.of_unwritten _ v hread)
  | sOut => exact .next _ _ (.refl _)
  | sDis | sCol | sClr | sEn => exact .next _ _ (.of_unwritten _ v hv)

/-- A step with another value in the hidden latch. -/
theorem step_sameButHiddenOut (hv : s.outv = false) :
    SameOutcome SameButHiddenOut (step s) (step (s.mapOut v)) := by
  refine step_mapHidden_same _ _ _ _ s (keep := fun t ht _ => .of_unwritten t v (ht.trans hv))
    (wrout := fun _ _ => .refl _) (hRdout := ?_) (invoke := .of_unwritten _ v hv)
    (reset := .refl _) (seq := exec_stateInstr_sameButHiddenOut s.takeAct v s.hs hv rfl)
  have kept : SameButHiddenOut (envRdout s.takeAct) ((envRdout s.takeAct).mapOut v) :=
    .of_unwritten _ v ((envRdout_outv s.takeAct).trans hv)
  rwa [← envRdout_mapOut s.takeAct v hv] at kept

end HiddenOut

/-- Settles O50: the pins by the definition of a read, the step by the relational rule with
`SameButHiddenOut`. -/
theorem outLatchHasNoMeaningBeforeWrite : Obligations.OutLatchHasNoMeaningBeforeWrite := by
  intro s v hv
  have same : SameOutcome SameButHiddenOut (step s) (step { s with out := v }) :=
    step_sameButHiddenOut s v hv
  refine ⟨?pins, fun t ht => ?next, fun r hr => same.eq_refused hr⟩
  case pins =>
    unfold State.outO outRead
    simp [hv]
  case next =>
    obtain ⟨u, hu, o, rfl, ho⟩ := same.exists_next ht
    exact ⟨o, hu, ho⟩

end Sys2Proof.Machine
end

section
/-! PROOFS. `K`, `P` and `RES` are not read until S_CHK writes them (R36, R152). -/

namespace Sys2Proof.Machine

/-- The sequencer is idle or in protocol step 1 or 2: no sweep has begun. -/
def HState.BeforeSweep (h : HState) : Prop := h = .sIdle ∨ h = .sDis ∨ h = .sChk

/-- `s` with other values in the sweep's registers. -/
def State.setSweep (k : BitVec 2) (p : Nibble) (d : DecodeResult) (s : State) : State :=
  s.mapHidden id (fun _ => k) (fun _ => p) (fun _ => d)

/-- `u` is `t` but for the sweep's registers before a sweep, and `t` itself at its start. -/
def SameButUnreadSweep (t u : State) : Prop :=
  (HState.BeforeSweep t.hs ∧ ∃ k p d, u = t.setSweep k p d) ∨ (t.hs = .sCol ∧ u = t)

section UnreadSweep

variable (s : State) (k : BitVec 2) (p : Nibble) (d : DecodeResult)

theorem SameButUnreadSweep.of_before (t : State) (ht : HState.BeforeSweep t.hs) :
    SameButUnreadSweep t (t.setSweep k p d) :=
  .inl ⟨ht, k, p, d, rfl⟩

theorem opIstat_setSweep (who : Issuer) :
    opIstat who (s.setSweep k p d) = (opIstat who s).setSweep k p d :=
  opIstat_mapHidden _ _ _ _ s who

/-- COLINIT writes all three (R122), so S_CHK confirming forgets what they held (R152). -/
theorem exec_sChk_confirmed_setSweep (hc : confirmFlag s.cfg s.isr = true) :
    exec .sChk (s.setSweep k p d) = exec .sChk s := by
  rw [exec_sChk_confirmed s hc, exec_sChk_confirmed (s.setSweep k p d) hc, opIstat_setSweep]
  rfl

/-- The three states before a sweep read none of the three registers. -/
theorem exec_stateInstr_sameButUnreadSweep (hb : HState.BeforeSweep s.hs)
    (hp : s.invokeI = false) :
    SameOutcome SameButUnreadSweep (exec (stateInstr s.hs) s)
      (exec (stateInstr s.hs) (s.setSweep k p d)) := by
  obtain h | h | h := hb <;> rw [h] <;> simp only [stateInstr]
  · rw [exec_sIdle_waits s hp, exec_sIdle_waits (s.setSweep k p d) hp]
    exact .next _ _ (.of_before k p d s (.inl h))
  · exact .next _ _ (.of_before k p d _ (.inr (.inr rfl)))
  · by_cases hc : confirmFlag s.cfg s.isr = true
    · rw [exec_sChk_confirmed_setSweep s k p d hc, exec_sChk_confirmed s hc]
      exact .next _ _ (.inr ⟨rfl, rfl⟩)
    · rw [exec_sChk_early s hc, exec_sChk_early (s.setSweep k p d) hc, opIstat_setSweep]
      exact .next _ _ (.of_before k p d _ (.inl rfl))

/-- A sample of the sink pins does not read the sweep's registers (R193). -/
theorem envRdout_setSweep :
    envRdout (s.setSweep k p d) = (envRdout s).setSweep k p d := by
  cases hv : s.outv with
  | false =>
    rw [envRdout_unwritten s hv, envRdout_unwritten (s.setSweep k p d) hv]
    rfl
  | true =>
    rw [envRdout_written s hv, envRdout_written (s.setSweep k p d) hv]
    rfl

/-- A step before a sweep with other values in the sweep's registers. -/
theorem step_sameButUnreadSweep (hb : HState.BeforeSweep s.hs) :
    SameOutcome SameButUnreadSweep (step s) (step (s.setSweep k p d)) := by
  have keep (t : State) (ht : t.hs = s.hs) : SameButUnreadSweep t (t.setSweep k p d) :=
    .of_before k p d t (ht ▸ hb)
  refine step_mapHidden_same _ _ _ _ s (keep := fun t _ ht => keep t ht)
    (wrout := fun _ _ => keep _ rfl) (hRdout := ?_)
    (invoke := .of_before k p d _ (.inr (.inl rfl)))
    (reset := .of_before _ _ _ _ (.inl rfl))
    (seq := exec_stateInstr_sameButUnreadSweep s.takeAct k p d hb rfl)
  have kept := keep (envRdout s.takeAct) (envRdout_hs s.takeAct)
  rwa [← envRdout_setSweep] at kept

end UnreadSweep

/-- Settles O59: the step by the relational rule with `SameButUnreadSweep`, S_CHK confirming by
COLINIT. -/
theorem sweepRegistersUnreadBeforeTheirWrite :
    Obligations.SweepRegistersUnreadBeforeTheirWrite := by
  refine ⟨fun s k p d hb => ?_, fun s k p d hc => exec_sChk_confirmed_setSweep s k p d hc⟩
  have same : SameOutcome SameButUnreadSweep (step s) (step { s with k := k, p := p, res := d }) :=
    step_sameButUnreadSweep s k p d hb
  refine ⟨fun t ht => ?_, fun r hr => same.eq_refused hr⟩
  obtain ⟨u, hu, ⟨hbefore, k', p', d', rfl⟩ | ⟨hcol, rfl⟩⟩ := same.exists_next ht
  · refine ⟨?_, k', p', d', hu, fun hcol => ?_⟩
    · obtain h | h | h := hbefore <;> simp [h]
    · obtain h | h | h := hbefore <;> simp [h] at hcol
  · exact ⟨.inr (.inr (.inr hcol)), u.k, u.p, u.res, hu, fun _ => ⟨rfl, rfl, rfl⟩⟩

end Sys2Proof.Machine
end

section
/-! PROOFS. The state after reset (R36). -/

namespace Sys2Proof.Machine

/-- Settles O37: the table of R36, register by register. -/
theorem resetStateIsTheSpecs : Obligations.ResetStateIsTheSpecs :=
  ⟨rfl, rfl, rfl, rfl, rfl, rfl, rfl, rfl, rfl⟩

/-- The invariant at reset: nothing is enabled or pending, and no sweep has begun. -/
theorem reset_inv : State.reset.Inv :=
  ⟨by decide, by decide, rfl, by decide, rfl⟩

/-- The trace of the single event RESET stands where the idle sequencer does. -/
theorem reset_traceLegal : State.reset.TraceLegal := rfl

/-- Under the default policy GATED's guarantee asks nothing. -/
theorem reset_gatedPending : State.reset.GatedPending := fun h => nomatch h

/-- Settles O40: the base case of O41, O42 and O43. -/
theorem invariantAtReset : Obligations.InvariantAtReset :=
  ⟨reset_inv, reset_traceLegal, reset_gatedPending⟩

end Sys2Proof.Machine
end

section
/-! SUPPORT. The fields of a command word put together again (R78), and the command decoder as an equation
per operation code (R79, R80, R81). -/

namespace Sys2Proof

/-- A command word is its two fields. -/
theorem CmdWord.mk_op_arg (w : CmdWord) : CmdWord.mk (CmdWord.op w) (CmdWord.arg w) = w :=
  (BitVec.extractLsb'_append_extractLsb'_eq_extractLsb' rfl).trans BitVec.extractLsb'_eq_self

/-- A mask that keeps all of `op` masks the argument. -/
theorem CmdWord.mk_and (op : BitVec 3) (a m : BitVec 8) :
    CmdWord.mk op a &&& CmdWord.mk 7#3 m = CmdWord.mk op (a &&& m) := by
  have hop : op &&& 7#3 = op := BitVec.and_allOnes
  unfold CmdWord.mk
  rw [BitVec.and_append, hop]

/-- The operand in the low `n` bits of `arg` is `arg` with its other bits cleared (R80). -/
theorem setWidth_extractLsb'_eq_and (a : BitVec 8) (n : Nat) :
    (a.extractLsb' 0 n).setWidth 8 = a &&& BitVec.ofNat 8 (2 ^ n - 1) := by
  apply BitVec.eq_of_getLsbD_eq
  intro i hi
  rw [BitVec.getLsbD_and, BitVec.getLsbD_ofNat, Nat.testBit_two_pow_sub_one]
  simp [hi, Bool.and_comm]

/-- An operand is read back from an argument that holds it (R80). -/
@[simp] theorem extractLsb'_setWidth_self {n m : Nat} (v : BitVec n) (h : n ≤ m) :
    (v.setWidth m).extractLsb' 0 n = v := by
  rw [BitVec.extractLsb'_setWidth_of_le (by omega), BitVec.extractLsb'_eq_self]

section Equations

variable {w : CmdWord}

@[simp] theorem decodeCmd_wrcol (h : CmdWord.op w = 0#3) :
    decodeCmd w = .wrcol ((CmdWord.arg w).extractLsb' 0 4) := by
  rw [decodeCmd, h]
  rfl

@[simp] theorem decodeCmd_rdcmb (h : CmdWord.op w = 1#3) : decodeCmd w = .rdcmb := by
  rw [decodeCmd, h]
  rfl

@[simp] theorem decodeCmd_wrout (h : CmdWord.op w = 2#3) :
    decodeCmd w = .wrout ((CmdWord.arg w).extractLsb' 0 5) := by
  rw [decodeCmd, h]
  rfl

@[simp] theorem decodeCmd_istat (h : CmdWord.op w = 3#3) : decodeCmd w = .istat := by
  rw [decodeCmd, h]
  rfl

@[simp] theorem decodeCmd_idis (h : CmdWord.op w = 4#3) :
    decodeCmd w = .idis (CmdWord.arg w) := by
  rw [decodeCmd, h]
  rfl

@[simp] theorem decodeCmd_iclr (h : CmdWord.op w = 5#3) :
    decodeCmd w = .iclr (CmdWord.arg w) := by
  rw [decodeCmd, h]
  rfl

@[simp] theorem decodeCmd_ien (h : CmdWord.op w = 6#3) : decodeCmd w = .ien (CmdWord.arg w) := by
  rw [decodeCmd, h]
  rfl

@[simp] theorem decodeCmd_reservedOp7 (h : CmdWord.op w = 7#3) : decodeCmd w = .reservedOp7 := by
  rw [decodeCmd, h]
  rfl

end Equations

theorem op_cases (op : BitVec 3) :
    op = 0#3 ∨ op = 1#3 ∨ op = 2#3 ∨ op = 3#3 ∨ op = 4#3 ∨ op = 5#3 ∨ op = 6#3 ∨ op = 7#3 := by
  revert op
  decide

/-- What holds of the eight kinds of command word, each with its reading, holds of every word with its
reading; `Machine.decodeCmd_elim` speaks of the reading alone. -/
theorem decodeCmd_word_elim {motive : CmdWord → Instr → Prop}
    (wrcol : ∀ a, motive (CmdWord.mk 0#3 a) (.wrcol (a.extractLsb' 0 4)))
    (rdcmb : ∀ a, motive (CmdWord.mk 1#3 a) .rdcmb)
    (wrout : ∀ a, motive (CmdWord.mk 2#3 a) (.wrout (a.extractLsb' 0 5)))
    (istat : ∀ a, motive (CmdWord.mk 3#3 a) .istat)
    (idis : ∀ a, motive (CmdWord.mk 4#3 a) (.idis a))
    (iclr : ∀ a, motive (CmdWord.mk 5#3 a) (.iclr a))
    (ien : ∀ a, motive (CmdWord.mk 6#3 a) (.ien a))
    (reservedOp7 : ∀ a, motive (CmdWord.mk 7#3 a) .reservedOp7) (w : CmdWord) :
    motive w (decodeCmd w) := by
  rw [← CmdWord.mk_op_arg w]
  obtain h | h | h | h | h | h | h | h := op_cases (CmdWord.op w) <;> rw [h]
  · simpa using wrcol (CmdWord.arg w)
  · simpa using rdcmb (CmdWord.arg w)
  · simpa using wrout (CmdWord.arg w)
  · simpa using istat (CmdWord.arg w)
  · simpa using idis (CmdWord.arg w)
  · simpa using iclr (CmdWord.arg w)
  · simpa using ien (CmdWord.arg w)
  · simpa using reservedOp7 (CmdWord.arg w)

end Sys2Proof
end

section
/-! SUPPORT. The addresses of the decoder ROM: the sixteen of the table (R75) and the others (R77). -/

namespace Sys2Proof

/-- The addresses of the sixteen key codes, in the order of the codes (R75). -/
def hitAddrs : List RomAddr :=
  [0xE7#8, 0x77#8, 0x7B#8, 0x7D#8, 0xB7#8, 0xBB#8, 0xBD#8, 0xD7#8,
    0xDB#8, 0xDD#8, 0x7E#8, 0xBE#8, 0xDE#8, 0xEE#8, 0xED#8, 0xEB#8]

/-- The sixteen are the addresses with one row and one column line low (R71, R72). -/
theorem mem_hitAddrs_iff :
    ∀ a : RomAddr, a ∈ hitAddrs ↔
      oneLow (a.extractLsb' 4 4) = true ∧ oneLow (a.extractLsb' 0 4) = true := by
  decide

/-- The operands of the default row are a well-formed pair when their address is none of the sixteen. -/
theorem wf_keydecMiss_iff (rows cols : Nibble) :
    Instr.wf (.keydecMiss rows cols) = true ↔ rows ++ cols ∉ hitAddrs := by
  rw [mem_hitAddrs_iff, BitVec.extractLsb'_append_eq_left, BitVec.extractLsb'_append_eq_right]
  simp [Instr.wf, Decidable.imp_iff_not_or]

/-- Every other address reads as the default row (R77). -/
theorem decodeRom_of_notMem {a : RomAddr} (h : a ∉ hitAddrs) :
    decodeRom a = .keydecMiss (a.extractLsb' 4 4) (a.extractLsb' 0 4) := by
  simp only [hitAddrs, List.mem_cons, List.not_mem_nil, or_false, not_or] at h
  simp only [decodeRom, h, if_false]

end Sys2Proof
end

section
/-! PROOFS. Encoding and decoding invert one another but for the ignored bits (R75, R77, R79, R80, R82). -/

namespace Sys2Proof

section Decoding

variable {w : Nat} {i : Instr}

/-- A word that decodes fits its format. -/
theorem lt_of_decode (f : Format) (h : decode f w = .ok i) : w < 2 ^ formatWidth f := by
  by_contra hw
  cases f <;> exact nomatch (if_neg hw).symm.trans h

theorem exists_of_decode_cmd (h : decode .cmd w = .ok i) :
    ∃ x : CmdWord, x.toNat = w ∧ decodeCmd x = i := by
  obtain ⟨x, rfl⟩ : ∃ x : CmdWord, x.toNat = w := ⟨.ofNatLT w (lt_of_decode .cmd h), rfl⟩
  exact ⟨x, rfl, Except.ok.inj ((decode_cmd x).symm.trans h)⟩

theorem exists_of_decode_dr (h : decode .dr w = .ok i) :
    ∃ x : RomAddr, x.toNat = w ∧ decodeRom x = i := by
  obtain ⟨x, rfl⟩ : ∃ x : RomAddr, x.toNat = w := ⟨.ofNatLT w (lt_of_decode .dr h), rfl⟩
  exact ⟨x, rfl, Except.ok.inj ((decode_dr x).symm.trans h)⟩

theorem exists_of_decode_hs (h : decode .hs w = .ok i) :
    ∃ x : HState, x.code.toNat = w ∧ stateInstr x = i := by
  obtain ⟨x, rfl⟩ : ∃ x : BitVec 3, x.toNat = w := ⟨.ofNatLT w (lt_of_decode .hs h), rfl⟩
  exact ⟨.ofCode x, by rw [HState.code_ofCode], Except.ok.inj ((decode_hs x).symm.trans h)⟩

end Decoding

/-- The default row reads its two operands back (R77). -/
theorem decodeRom_append (rows cols : Nibble) (h : Instr.wf (.keydecMiss rows cols) = true) :
    decodeRom (rows ++ cols) = .keydecMiss rows cols := by
  rw [decodeRom_of_notMem ((wf_keydecMiss_iff rows cols).mp h),
    BitVec.extractLsb'_append_eq_left, BitVec.extractLsb'_append_eq_right]

/-- Settles O3: each word by evaluation of its decoder. -/
theorem specWordsDecode : Obligations.SpecWordsDecode :=
  ⟨rfl, rfl, rfl, rfl, rfl, rfl, rfl, rfl, rfl, rfl, rfl, rfl, rfl⟩

/-- Settles O4: by the rows of the table. Those with an operand rest on the field equations, the others are
one word each. -/
theorem decodeEncodeRoundTrip : Obligations.DecodeEncodeRoundTrip := by
  intro i hwf
  cases i with
  | wrcol _ | wrout _ | idis _ | iclr _ | ien _ => simp [encode, decode_cmd]
  | keydecMiss rows cols =>
    rw [encode, decode_dr, decodeRom_append rows cols hwf]
  | rdcmb | istat | reservedOp7 => rfl
  | keydecK0 | keydecK1 | keydecK2 | keydecK3 | keydecK4 | keydecK5 | keydecK6 | keydecK7
  | keydecK8 | keydecK9 | keydecK10 | keydecK11 | keydecK12 | keydecK13 | keydecK14
  | keydecK15 => rfl
  | sIdle | sDis | sChk | sCol | sRd | sOut | sClr | sEn => rfl

/-- `i` is well formed, and its encoding is the word `w` of format `f` but for the bits its row ignores. -/
def Instr.ReadFrom (i : Instr) (f : Format) (w : Nat) : Prop :=
  i.wf = true ∧ encode i = (f, w &&& usedBits i)

/-- A command reads `op` and the bits `m` of `arg`. -/
theorem readFrom_mk {i : Instr} {op : BitVec 3} {a m x : BitVec 8} (hwf : i.wf = true)
    (henc : encode i = (.cmd, (CmdWord.mk op x).toNat))
    (hused : usedBits i = (CmdWord.mk 7#3 m).toNat) (hx : x = a &&& m) :
    i.ReadFrom .cmd (CmdWord.mk op a).toNat := by
  refine ⟨hwf, ?_⟩
  rw [henc, hused, hx, ← CmdWord.mk_and, BitVec.toNat_and]

/-- A command word is read from `op` and the bits of its operand (R80). -/
theorem decodeCmd_readFrom (w : CmdWord) : (decodeCmd w).ReadFrom .cmd w.toNat := by
  refine decodeCmd_word_elim (motive := fun w i => i.ReadFrom .cmd w.toNat) ?wrcol ?rdcmb ?wrout
    ?istat ?idis ?iclr ?ien ?reservedOp7 w
  case wrcol => exact fun a => readFrom_mk rfl rfl rfl (setWidth_extractLsb'_eq_and a 4)
  case wrout => exact fun a => readFrom_mk rfl rfl rfl (setWidth_extractLsb'_eq_and a 5)
  case rdcmb | istat | reservedOp7 => exact fun _ => readFrom_mk rfl rfl rfl BitVec.and_zero.symm
  case idis | iclr | ien => exact fun _ => readFrom_mk rfl rfl rfl BitVec.and_allOnes.symm

/-- The sixteen rows of R75 are one word each. -/
theorem hitRow_readFrom : ∀ a ∈ hitAddrs, (decodeRom a).ReadFrom .dr a.toNat := by
  unfold Instr.ReadFrom
  decide

/-- Every row of format DR is read from all eight bits. -/
theorem decodeRom_readFrom (a : RomAddr) : (decodeRom a).ReadFrom .dr a.toNat := by
  by_cases h : a ∈ hitAddrs
  · exact hitRow_readFrom a h
  · obtain ⟨rows, cols, rfl⟩ : ∃ rows cols : Nibble, a = rows ++ cols :=
      ⟨_, _, (Machine.romAddr_halves a).symm⟩
    have hwf := (wf_keydecMiss_iff rows cols).mpr h
    have hused : (rows ++ cols : RomAddr) = (rows ++ cols) &&& 0xFF#8 := BitVec.and_allOnes.symm
    rw [decodeRom_append rows cols hwf]
    exact ⟨hwf, congrArg (fun b : RomAddr => (Format.dr, b.toNat)) hused⟩

/-- A state code has no ignored bit (R82). -/
theorem stateInstr_readFrom (h : HState) : (stateInstr h).ReadFrom .hs h.code.toNat := by
  cases h <;> exact ⟨rfl, rfl⟩

/-- Settles O5: a word decodes by the width test alone, and each format's decoder gives a reading of its
word in the sense of `Instr.ReadFrom`. -/
theorem encodeKeepsUsedBits : Obligations.EncodeKeepsUsedBits := by
  refine fun f w => ⟨⟨fun hw => ?decodes, fun ⟨i, hi⟩ => lt_of_decode f hi⟩, fun i hi => ?reads⟩
  case decodes => cases f <;> exact ⟨_, if_pos hw⟩
  case reads =>
    change i.ReadFrom f w
    cases f with
    | cmd =>
      obtain ⟨x, rfl, rfl⟩ := exists_of_decode_cmd hi
      exact decodeCmd_readFrom x
    | dr =>
      obtain ⟨x, rfl, rfl⟩ := exists_of_decode_dr hi
      exact decodeRom_readFrom x
    | hs =>
      obtain ⟨x, rfl, rfl⟩ := exists_of_decode_hs hi
      exact stateInstr_readFrom x

end Sys2Proof
end

section
/-! PROOFS. The decoder ROM and the layout of the matrix (R75, R76, R87). -/

namespace Sys2Proof.Machine

/-- The ROM holds the value of a miss at exactly the addresses that are none of the sixteen (R76). -/
theorem romRead_eq_miss_iff : ∀ a : RomAddr, romRead a = 0x10#5 ↔ a ∉ hitAddrs := by
  decide

/-- Settles O15: the sixteen words one by one, the other addresses by `romRead_eq_miss_iff`. -/
theorem romHoldsTheLookupTable : Obligations.RomHoldsTheLookupTable :=
  ⟨fun _ _ => rfl, rfl, rfl, rfl, rfl, rfl, rfl, rfl, rfl, rfl, rfl, rfl, rfl, rfl, rfl, rfl,
    rfl, fun a h => (romRead_eq_miss_iff a).mpr h⟩

/-- Row line `r` and column line `c` alone low address the code of the key between them (R75, R87). -/
theorem romRead_colPattern (r c : Line) :
    romRead (romAddr (colPattern r) (colPattern c)) = (keyAt r c).setWidth 5 := by
  revert r c
  decide

/-- No code stands at two places of the matrix (R87). -/
theorem keyAt_injective (r c r' c' : Line) (h : keyAt r c = keyAt r' c') : r = r' ∧ c = c' := by
  revert r c r' c'
  decide

/-- Settles O16: the sixteen positions, and their codes apart. -/
theorem matrixLayoutMatchesRom : Obligations.MatrixLayoutMatchesRom :=
  ⟨romRead_colPattern, keyAt_injective⟩

end Sys2Proof.Machine
end

section
/-! PROOFS. A placed word is the next step's (R76, R78, R82), and operation code 7 has no step (R81, R107). -/

namespace Sys2Proof.Machine

section FetchedWord

variable (s : State)

theorem step_seq (hr : s.rst = false) (hi : s.nextAct = .seq) :
    step s = exec (stateInstr s.hs) s.takeAct :=
  step_of_run _ _ _ (nextTurn_seq s hr hi)

/-- A command presented to an idle block runs (R108). -/
theorem step_hcmd (w : CmdWord) (hr : s.rst = false) (hb : s.idle = true)
    (hi : s.nextAct = .hcmd w) : step s = exec (decodeCmd w) s.takeAct := by
  refine step_of_run _ _ _ ?_
  unfold nextTurn
  rw [hr, hi]
  exact if_pos hb

/-- An address presented to the decoder ROM is read whatever the level of `rst` (log 13). -/
theorem step_rom (a : RomAddr) (hi : s.nextAct = .rom a) :
    step s = exec (decodeRom a) s.takeAct := by
  refine step_of_run _ _ _ ?_
  unfold nextTurn
  rw [hi]
  exact ite_self _

end FetchedWord

/-- A table word that decodes is a word of the format its width and value give it (log 7). -/
theorem decode_of_decodeTableWord {nbits w : Nat} {i : Instr}
    (h : decodeTableWord nbits w = some i) : decode (tableFormat nbits w) w = .ok i := by
  unfold decodeTableWord at h
  split at h
  · cases h
  · split at h
    · cases h
      assumption
    · cases h

/-- Settles O2: by the format of the word; the placed act is the next one, and taking it gives the list of
acts back. -/
theorem fetchWordRunsTableWord : Obligations.FetchWordRunsTableWord := by
  intro s nbits w i h
  have hdec := decode_of_decodeTableWord h
  unfold State.withFetchWord placeTableWord
  cases hf : tableFormat nbits w <;> rw [hf] at hdec
  case cmd =>
    obtain ⟨x, rfl, rfl⟩ := exists_of_decode_cmd hdec
    simp only [BitVec.ofNat_toNat, BitVec.setWidth_eq]
    exact ⟨_, step_hcmd _ x rfl rfl rfl, rfl, nofun, fun _ => ⟨rfl, rfl⟩, nofun⟩
  case dr =>
    obtain ⟨x, rfl, rfl⟩ := exists_of_decode_dr hdec
    simp only [BitVec.ofNat_toNat, BitVec.setWidth_eq]
    exact ⟨_, step_rom _ x rfl, rfl, nofun, nofun, fun _ => ⟨rfl, rfl⟩⟩
  case hs =>
    obtain ⟨x, rfl, rfl⟩ := exists_of_decode_hs hdec
    simp only [BitVec.ofNat_toNat, BitVec.setWidth_eq, HState.ofCode_code]
    exact ⟨_, step_seq _ rfl rfl, rfl, fun _ => ⟨rfl, rfl⟩, nofun, nofun⟩

theorem decodeCmd_eq_reservedOp7_iff (w : CmdWord) :
    decodeCmd w = .reservedOp7 ↔ CmdWord.op w = 7#3 := by
  refine decodeCmd_word_elim (motive := fun w i => i = .reservedOp7 ↔ CmdWord.op w = 7#3)
    ?_ ?_ ?_ ?_ ?_ ?_ ?_ ?_ w <;> intro a <;> simp

/-- Every command but the reserved one has a step in every state (R110). -/
theorem exec_decodeCmd_completes (s : State) (w : CmdWord) (h : CmdWord.op w ≠ 7#3) :
    ∃ t, exec (decodeCmd w) s = .next t := by
  rw [Ne, ← decodeCmd_eq_reservedOp7_iff] at h
  revert h
  refine decodeCmd_elim (motive := fun i => i ≠ .reservedOp7 → ∃ t, exec i s = .next t)
    ?wrcol ?rdcmb ?wrout ?istat ?idis ?iclr ?ien ?reservedOp7 w
  case reservedOp7 => exact fun h => absurd rfl h
  case rdcmb | istat => exact fun _ => ⟨_, rfl⟩
  all_goals exact fun _ _ => ⟨_, rfl⟩

/-- The sequencer forms words of operation codes 0 to 6 only (R151 to R157). -/
theorem sequencerWord_op_ne (s : State) (w : CmdWord) (h : sequencerWord s = some w) :
    CmdWord.op w ≠ 7#3 := by
  unfold sequencerWord at h
  split at h <;> cases h <;> rw [CmdWord.op_mk] <;> decide

/-- Settles O13: the rows by the equations of the decoder, the steps by `step_hcmd`. -/
theorem reservedOpIsRefused : Obligations.ReservedOpIsRefused := by
  refine ⟨fun w => ?rows, fun _ => rfl, fun s w rest hr hb hi h7 => ?refused,
    fun s w rest hr hb hi h7 => ?next, sequencerWord_op_ne⟩
  case rows =>
    exact ⟨fun h => ⟨_, decodeCmd_wrcol h⟩, decodeCmd_rdcmb, fun h => ⟨_, decodeCmd_wrout h⟩,
      decodeCmd_istat, fun h => ⟨_, decodeCmd_idis h⟩, fun h => ⟨_, decodeCmd_iclr h⟩,
      fun h => ⟨_, decodeCmd_ien h⟩, decodeCmd_eq_reservedOp7_iff w⟩
  case refused =>
    rw [step_hcmd s w hr hb (s.nextAct_cons _ rest hi), decodeCmd_reservedOp7 h7]
    rfl
  case next =>
    rw [step_hcmd s w hr hb (s.nextAct_cons _ rest hi)]
    exact exec_decodeCmd_completes s.takeAct w h7

end Sys2Proof.Machine
end

section
/-! PROOFS. The sequencer's step is the operation of its command word, then the step's own writes (R80,
R108, R151 to R157, R159). -/

namespace Sys2Proof.Machine

/-- `t` comes after `u` by writes to no peripheral register, pin or oracle; the trace may grow. -/
def State.FollowsQuietly (t u : State) : Prop :=
  t.col = u.col ∧ t.out = u.out ∧ t.outv = u.outv ∧ t.ier = u.ier ∧ t.isr = u.isr
    ∧ t.rows = u.rows ∧ t.free = u.free ∧ t.outWe = u.outWe ∧ t.hrdata = u.hrdata
    ∧ u.trace <+: t.trace

namespace State.FollowsQuietly

variable {t u : State}

theorem refl (u : State) : u.FollowsQuietly u :=
  ⟨rfl, rfl, rfl, rfl, rfl, rfl, rfl, rfl, rfl, List.prefix_rfl⟩

theorem goto (h : HState) (ht : t.FollowsQuietly u) : (t.goto h).FollowsQuietly u := ht

theorem colInit (ht : t.FollowsQuietly u) : (opColInit t).FollowsQuietly u := ht

theorem nextCol (ht : t.FollowsQuietly u) : (opNextCol t).FollowsQuietly u := ht

theorem returnFromHandler (k : ReturnKind) (ht : t.FollowsQuietly u) :
    (returnFromHandler k t).FollowsQuietly u := by
  obtain ⟨hcol, hout, houtv, hier, hisr, hrows, hfree, hwe, hdata, htrace⟩ := ht
  exact ⟨hcol, hout, houtv, hier, hisr, hrows, hfree, hwe, hdata,
    htrace.trans (List.prefix_append _ _)⟩

/-- Beyond its RDCMB the read of a sweep writes `RES` and the ROM's output (R127). -/
theorem scanRead (u : State) : (opScanRead u).FollowsQuietly (opRdcmb .sequencer u) := by
  rw [opScanRead_eq, opRdcmb_eq]
  exact refl _

end State.FollowsQuietly

/-- While it runs the sequencer owns the port (R108). -/
theorem issuer_eq_sequencer (s : State) (h : s.hs ≠ .sIdle) : s.issuer = .sequencer := by
  simp [State.issuer, State.idle, h]

/-- `CH_MASK` lies within the masks' width (R9, R84). -/
theorem maskArg_chMask (c : Config) (h : c.wf = true) : maskArg c (chMask c) = chMask c := by
  obtain ⟨hch, hw⟩ := Config.wf_bounds c h
  apply BitVec.eq_of_getLsbD_eq
  intro i hi
  rw [maskArg, BitVec.getLsbD_and, getLsbD_chMask c i hi, getLsbD_maskBits c i hw]
  by_cases hi : i = c.ch
  · simp [hi, hch]
  · simp [hi]

/-- S_CHK is its ISTAT and then COLINIT or the early exit (R152). -/
theorem exec_sChk_followsQuietly (s : State) :
    ∃ t, exec .sChk s = .next t ∧ t.FollowsQuietly (opIstat .sequencer s) := by
  by_cases hc : confirmFlag s.cfg s.isr = true
  · exact ⟨_, exec_sChk_confirmed s hc, .goto _ (.colInit (.refl _))⟩
  · exact ⟨_, exec_sChk_early s hc, .returnFromHandler _ (.refl _)⟩

/-- S_RD is its RDCMB and then the decode and the decision (R154). -/
theorem exec_sRd_followsQuietly (s : State) :
    ∃ t, exec .sRd s = .next t ∧ t.FollowsQuietly (opRdcmb .sequencer s) := by
  by_cases hl : hitFlag (opScanRead s).res = true ∨ s.k = 3#2
  · exact ⟨_, exec_sRd_last s hl, .goto _ (.scanRead s)⟩
  · exact ⟨_, exec_sRd_advance s hl, .goto _ (.nextCol (.scanRead s))⟩

/-- The operation that the sequencer's word stands for, on the state that formed it (R151 to R157). -/
def sequencerOp (s : State) : State :=
  match s.hs with
  | .sIdle => s
  | .sDis => opIdis .sequencer (chMask s.cfg) s
  | .sChk => opIstat .sequencer s
  | .sCol => opWrcol .sequencer s.p s
  | .sRd => opRdcmb .sequencer s
  | .sOut => opWrout .sequencer (outWord s.cfg s.res) s
  | .sClr => opIclr .sequencer (chMask s.cfg) s
  | .sEn => opIen .sequencer (chMask s.cfg) s

/-- The word decodes to that operation, with the operand the sequencer gave it (R80). -/
theorem exec_sequencerWord (s : State) (w : CmdWord) (hwf : s.cfg.wf = true)
    (hw : sequencerWord s = some w) : exec (decodeCmd w) s = .next (sequencerOp s) := by
  have hmask := maskArg_chMask s.cfg hwf
  unfold sequencerWord at hw
  unfold sequencerOp
  cases hs : s.hs <;> rw [hs] at hw <;> cases hw <;>
    have hown := issuer_eq_sequencer s (by simp [hs])
  case sDis => simp [exec, execIdis, hown, hmask]
  case sChk => simp [exec, execIstat, hown]
  case sCol => simp [exec, execWrcol, hown]
  case sRd => simp [exec, execRdcmb, hown]
  case sOut => simp [exec, execWrout, hown]
  case sClr => simp [exec, execIclr, hown, hmask]
  case sEn => simp [exec, execIen, hown, hmask]

/-- The step of a state is that operation and then writes of the sequencer's own. -/
theorem exec_stateInstr_followsQuietly (s : State) (hs : s.hs ≠ .sIdle) :
    ∃ t, exec (stateInstr s.hs) s = .next t ∧ t.FollowsQuietly (sequencerOp s) := by
  unfold sequencerOp
  cases h : s.hs with
  | sIdle => exact absurd h hs
  | sChk => exact exec_sChk_followsQuietly s
  | sRd => exact exec_sRd_followsQuietly s
  | sDis | sCol | sOut | sClr => exact ⟨_, rfl, .goto _ (.refl _)⟩
  | sEn => exact ⟨_, rfl, .returnFromHandler _ (.refl _)⟩

/-- Settles O27: both run the operation `sequencerOp`. -/
theorem sequencerStepPerformsItsWord : Obligations.SequencerStepPerformsItsWord := by
  intro s w hwf hw
  have hs : s.hs ≠ .sIdle := by
    intro h
    simp [sequencerWord, h] at hw
  obtain ⟨t, ht, hquiet⟩ := exec_stateInstr_followsQuietly s hs
  exact ⟨sequencerOp s, t, exec_sequencerWord s w hwf hw, ht, hquiet⟩

end Sys2Proof.Machine
end

section
/-! SUPPORT. Runs of the machine in pieces, and the steps of the sequencer while no other agent acts. -/

namespace Sys2Proof.Machine

/-- A run that gets through its first `n` steps goes on from there. -/
theorem core_run_add (M : Host.Core) (n m : Nat) (a b : M.State) (h : M.run n a = .next b) :
    M.run (n + m) a = M.run m b := by
  induction n generalizing a with
  | zero =>
    cases h
    rw [Nat.zero_add]
  | succ n ih =>
    rw [Nat.succ_add]
    cases hs : M.step a with
    | next c =>
      rw [core_run_next M _ a c hs] at h ⊢
      exact ih c h
    | fault | refused =>
      rw [Host.Core.run, hs] at h
      cases h

/-- `n` steps from `s` complete, in a state of which `Q` holds. -/
def State.Reaches (s : State) (n : Nat) (Q : State → Prop) : Prop :=
  ∃ t : State, Host.Core.run Sys2Proof.core n s = .next t ∧ Q t

namespace State.Reaches

variable {s : State} {n : Nat} {Q R : State → Prop}

theorem refl (h : Q s) : s.Reaches 0 Q := ⟨s, rfl, h⟩

theorem trans (h : s.Reaches n Q) {m : Nat} (k : ∀ t, Q t → t.Reaches m R) :
    s.Reaches (n + m) R := by
  obtain ⟨t, hrun, ht⟩ := h
  obtain ⟨u, hrun', hu⟩ := k t ht
  exact ⟨u, (core_run_add Sys2Proof.core n m s t hrun).trans hrun', hu⟩

/-- The sequencer's step, with `rst` low and no act listed (R159, R198). -/
theorem seq {t : State} (hr : s.rst = false) (hi : s.inputs = [])
    (he : exec (stateInstr s.hs) s.settlePins = .next t) (h : Q t) : s.Reaches 1 Q := by
  refine ⟨t, run_next s 0 t ?_, h⟩
  rw [step_seq s hr (s.nextAct_nil hi), s.takeAct_nil hi, he]

end State.Reaches

end Sys2Proof.Machine
end

section
/-! SUPPORT. The frame of the sweep's read (R127), the nominal keypad with one column driven (R184) and what
the decoder makes of it, and the sweep's registers as a column line (R27, R28). -/

namespace Sys2Proof.Machine

@[simp] theorem opScanRead_k (s : State) : (opScanRead s).k = s.k := by
  rw [opScanRead_eq]

@[simp] theorem opScanRead_p (s : State) : (opScanRead s).p = s.p := by
  rw [opScanRead_eq]

@[simp] theorem opScanRead_col (s : State) : (opScanRead s).col = s.col := by
  rw [opScanRead_eq]

/-- The rows of the nominal keypad are sampled from the held keys and `COL` (R184). -/
theorem rowSample_keypad (s : State) (he : s.cfg.rowsEnv = .keypad) :
    rowSample s = keypadRows s.held s.col := by
  unfold rowSample
  rw [he]

/-- With column `c` alone driven only the keys of that column pull a row low. -/
theorem rowLow_colPattern (held : Vector Bool 16) (r c : Line) :
    rowLow held (colPattern c) r = keyHeld held r c := by
  fin_cases c <;> simp [rowLow, colPattern]

/-- A key alone in the driven column pulls its own row low (R72, R184). -/
theorem keypadRows_sole (held : Vector Bool 16) (r c : Line)
    (h : ∀ r' : Line, keyHeld held r' c = decide (r' = r)) :
    keypadRows held (colPattern c) = colPattern r := by
  simp only [keypadRows, rowLow_colPattern, h]
  clear h
  revert r
  decide

/-- With no key held in the driven column all rows read high. -/
theorem keypadRows_none (held : Vector Bool 16) (c : Line)
    (h : ∀ r : Line, keyHeld held r c = false) : keypadRows held (colPattern c) = 0b1111#4 := by
  simp only [keypadRows, rowLow_colPattern, h]
  rfl

/-- What the decoder gives for column `c` of the nominal keypad with the keys of `held` down. -/
def columnWord (held : Vector Bool 16) (c : Line) : DecodeResult :=
  romRead (romAddr (keypadRows held (colPattern c)) (colPattern c))

theorem columnWord_sole (held : Vector Bool 16) (r c : Line)
    (h : ∀ r' : Line, keyHeld held r' c = decide (r' = r)) :
    columnWord held c = (keyAt r c).setWidth 5 := by
  rw [columnWord, keypadRows_sole held r c h, romRead_colPattern]

theorem columnWord_none (held : Vector Bool 16) (c : Line)
    (h : ∀ r : Line, keyHeld held r c = false) : columnWord held c = 0x10#5 := by
  rw [columnWord, keypadRows_none held c h]
  clear h
  revert c
  decide

/-- A key code zero-extended has the miss flag clear (R74). -/
theorem getLsbD_setWidth_keyCode (code : KeyCode) : (code.setWidth 5).getLsbD 4 = false := by
  simp

/-- The next column's pattern is the rotation of this one's (R121, R123). -/
theorem rotl4_colPattern (c : Line) : rotl4 (colPattern c) = colPattern (c + 1) := by
  revert c
  decide

/-- Whether `K` is 3 says whether the column is the last (R27). -/
theorem ofNat_line_eq_three_iff (c : Line) : BitVec.ofNat 2 c.val = 3#2 ↔ c = 3 := by
  revert c
  decide

theorem ofNat_line_succ (c : Line) : BitVec.ofNat 2 c.val + 1#2 = BitVec.ofNat 2 (c + 1).val := by
  revert c
  decide

end Sys2Proof.Machine
end

section
/-! PROOFS. One invocation under the nominal keypad, from S_DIS to the normal return (R129, R151 to R158,
R163): two steps to the sweep, two for every column tried, three to the return. -/

namespace Sys2Proof.Machine

/-- `s` begins an invocation whose flag is up, and no other agent acts in it. -/
structure State.BeginsService (s : State) : Prop where
  wf : s.cfg.wf = true
  rst : s.rst = false
  hs : s.hs = .sDis
  is : s.is = true
  inputs : s.inputs = []

/-- `s` is a state of the invocation that `s₀` begins, after S_DIS and before S_CLR. -/
structure State.InService (s₀ s : State) : Prop where
  cfg : s.cfg = s₀.cfg
  held : s.held = s₀.held
  rst : s.rst = false
  inputs : s.inputs = []
  ier : s.ier = s₀.ier &&& ~~~chMask s₀.cfg
  isr : s.isr = s₀.isr

namespace State.InService

variable {s₀ s : State}

theorem goto {h' : HState} (h : s₀.InService s) : s₀.InService (s.goto h') :=
  ⟨h.cfg, h.held, h.rst, h.inputs, h.ier, h.isr⟩

theorem drive {p : Nibble} (h : s₀.InService s) :
    s₀.InService (opWrcol .sequencer p s.settlePins) :=
  ⟨h.cfg, h.held, h.rst, h.inputs, h.ier, h.isr⟩

theorem scanRead (h : s₀.InService s) : s₀.InService (opScanRead s.settlePins) := by
  rw [opScanRead_eq]
  exact ⟨h.cfg, h.held, h.rst, h.inputs, h.ier, h.isr⟩

theorem nextCol (h : s₀.InService s) : s₀.InService (opNextCol s) :=
  ⟨h.cfg, h.held, h.rst, h.inputs, h.ier, h.isr⟩

end State.InService

/-- The sweep of that invocation stands at column `c`, in state `h`. -/
structure State.SweepsAt (s₀ : State) (c : Line) (h : HState) (s : State) : Prop
    extends State.InService s₀ s where
  hs : s.hs = h
  k : s.k = BitVec.ofNat 2 c.val
  p : s.p = colPattern c

/-- The sweep has ended at column `c`, with the decoder's word for it (R131). -/
structure State.SweptAt (s₀ : State) (c : Line) (s : State) : Prop
    extends State.InService s₀ s where
  hs : s.hs = .sOut
  res : s.res = columnWord s₀.held c
  col : s.col = colPattern c

/-- The invocation has returned from a sweep that ended at column `c` (R155 to R157). -/
structure State.ServedAt (s₀ : State) (c : Line) (t : State) : Prop where
  out : t.out = outWord s₀.cfg (columnWord s₀.held c)
  outv : t.outv = true
  res : t.res = columnWord s₀.held c
  col : t.col = colPattern c
  hs : t.hs = .sIdle
  cfg : t.cfg = s₀.cfg
  ier : t.ier = s₀.ier ||| chMask s₀.cfg
  isr : t.isr = s₀.isr &&& ~~~chMask s₀.cfg

/-- Disabling and then enabling the same channels enables them. -/
theorem and_not_or_cancel (x m : Mask) : x &&& ~~~m ||| m = x ||| m := by
  apply BitVec.eq_of_getLsbD_eq
  intro i hi
  rw [BitVec.getLsbD_or, BitVec.getLsbD_or, BitVec.getLsbD_and, BitVec.getLsbD_not]
  cases m.getLsbD i <;> simp [hi]

section Invocation

variable {s₀ s : State} {c : Line}

/-- S_DIS and S_CHK with the flag up (R151, R152). -/
theorem reaches_sweep (hb : s₀.BeginsService) : s₀.Reaches 2 (s₀.SweepsAt 0 .sCol) := by
  obtain ⟨hwf, hr, hs, his, hi⟩ := hb
  obtain ⟨hch, hw⟩ := Config.wf_bounds _ hwf
  have hc : confirmFlag s₀.cfg s₀.isr = true := by
    rw [confirmFlag_eq _ _ (by omega)]
    exact his
  have disabled : s₀.Reaches 1
      (· = (opIdis .sequencer (chMask s₀.cfg) s₀.settlePins).goto .sChk) :=
    .seq hr hi (by rw [hs]; rfl) rfl
  refine disabled.trans (m := 1) fun t ht => ?_
  subst ht
  refine .seq hr hi (exec_sChk_confirmed _ hc) ?_
  rw [opIstat_eq]
  exact ⟨⟨rfl, rfl, hr, hi, rfl, rfl⟩, rfl, rfl, rfl⟩

/-- S_COL drives the pattern of its column (R153). -/
theorem reaches_read (h : s₀.SweepsAt c .sCol s) :
    s.Reaches 1 fun t => s₀.SweepsAt c .sRd t ∧ t.col = colPattern c := by
  have he : exec (stateInstr s.hs) s.settlePins
      = .next ((opWrcol .sequencer s.p s.settlePins).goto .sRd) := by
    rw [h.hs]
    rfl
  exact .seq h.rst h.inputs he ⟨⟨h.toInService.drive.goto, rfl, h.k, h.p⟩, h.p⟩

/-- In S_RD the decoder is given the column that is driven (R154). -/
theorem res_scanRead (hk : s₀.cfg.rowsEnv = .keypad) (h : s₀.SweepsAt c .sRd s)
    (hcol : s.col = colPattern c) : (opScanRead s.settlePins).res = columnWord s₀.held c := by
  rw [opScanRead_eq]
  simp only [rowSel_combinedWord]
  rw [rowSample_keypad _ (by rw [State.settlePins_cfg, h.cfg, hk])]
  simp only [State.settlePins_held, State.settlePins_col, State.settlePins_p, h.held, hcol, h.p,
    columnWord]

/-- A miss before the last column goes on to the next (R129, R154). -/
theorem reaches_nextColumn (hk : s₀.cfg.rowsEnv = .keypad) (h : s₀.SweepsAt c .sCol s)
    (hmiss : hitFlag (columnWord s₀.held c) = false) (hc : c ≠ 3) :
    s.Reaches 2 (s₀.SweepsAt (c + 1) .sCol) := by
  refine (reaches_read h).trans (m := 1) fun t ⟨ht, hcol⟩ => ?_
  have hres := res_scanRead hk ht hcol
  have goes_on : ¬(hitFlag (opScanRead t.settlePins).res = true ∨ t.settlePins.k = 3#2) := by
    rw [hres, State.settlePins_k, ht.k, ofNat_line_eq_three_iff]
    simp [hmiss, hc]
  refine .seq ht.rst ht.inputs (by rw [ht.hs]; exact exec_sRd_advance _ goes_on)
    ⟨ht.toInService.scanRead.nextCol.goto, rfl, ?_, ?_⟩
  · rw [State.goto_k, opNextCol_k, opScanRead_k, State.settlePins_k, ht.k, ofNat_line_succ]
  · rw [State.goto_p, opNextCol_p, opScanRead_p, State.settlePins_p, ht.p, rotl4_colPattern]

/-- A hit, or the last column, ends the sweep (R129, R154). -/
theorem reaches_swept (hk : s₀.cfg.rowsEnv = .keypad) (h : s₀.SweepsAt c .sCol s)
    (hlast : hitFlag (columnWord s₀.held c) = true ∨ c = 3) : s.Reaches 2 (s₀.SweptAt c) := by
  refine (reaches_read h).trans (m := 1) fun t ⟨ht, hcol⟩ => ?_
  have hres := res_scanRead hk ht hcol
  have ends : hitFlag (opScanRead t.settlePins).res = true ∨ t.settlePins.k = 3#2 := by
    rwa [hres, State.settlePins_k, ht.k, ofNat_line_eq_three_iff]
  refine .seq ht.rst ht.inputs (by rw [ht.hs]; exact exec_sRd_last _ ends)
    ⟨ht.toInService.scanRead.goto, rfl, hres, ?_⟩
  rw [State.goto_col, opScanRead_col, State.settlePins_col, hcol]

/-- The sweep comes to column `c` when every column before it misses. -/
theorem reaches_column (hk : s₀.cfg.rowsEnv = .keypad) (h : s₀.SweepsAt 0 .sCol s)
    (hmiss : ∀ c' < c, hitFlag (columnWord s₀.held c') = false) :
    s.Reaches (2 * c.val) (s₀.SweepsAt c .sCol) := by
  induction c using Fin.induction with
  | zero => exact .refl h
  | succ i ih =>
    have before : s.Reaches (2 * i.val) (s₀.SweepsAt i.castSucc .sCol) :=
      ih fun c' hc' => hmiss c' (hc'.trans i.castSucc_lt_succ)
    refine before.trans (m := 2) fun t ht => ?_
    rw [← Fin.coeSucc_eq_succ]
    exact reaches_nextColumn hk ht (hmiss _ i.castSucc_lt_succ) i.castSucc_ne_last

/-- S_OUT, S_CLR and S_EN (R155 to R157). -/
theorem reaches_served (h : s₀.SweptAt c s) : s.Reaches 3 (s₀.ServedAt c) := by
  have written : s.Reaches 1
      (· = (opWrout .sequencer (outWord s.cfg s.res) s.settlePins).goto .sClr) :=
    .seq h.rst h.inputs (by rw [h.hs]; rfl) rfl
  refine written.trans (m := 2) fun t ht => ?_
  have cleared : t.Reaches 1 (· = (opIclr .sequencer (chMask s.cfg) t.settlePins).goto .sEn) := by
    subst ht
    exact .seq h.rst h.inputs rfl rfl
  refine cleared.trans (m := 1) fun u hu => ?_
  subst hu ht
  refine .seq h.rst h.inputs rfl
    ⟨congrArg₂ outWord h.cfg h.res, rfl, h.res, h.col, rfl, h.cfg, ?ier, ?isr⟩
  case ier =>
    change s.ier ||| chMask s.cfg = _
    rw [h.ier, h.cfg, and_not_or_cancel]
  case isr =>
    change s.isr &&& ~~~chMask s.cfg = _
    rw [h.isr, h.cfg]

/-- An invocation whose sweep ends at column `c`, by the first hit or as the last column. -/
theorem reaches_servedAt (hk : s₀.cfg.rowsEnv = .keypad) (hb : s₀.BeginsService)
    (hmiss : ∀ c' < c, hitFlag (columnWord s₀.held c') = false)
    (hlast : hitFlag (columnWord s₀.held c) = true ∨ c = 3) :
    s₀.Reaches (7 + 2 * c.val) (s₀.ServedAt c) := by
  have swept : s₀.Reaches (2 + 2 * c.val + 2) (s₀.SweptAt c) :=
    ((reaches_sweep hb).trans fun _ ht => reaches_column hk ht hmiss).trans
      fun _ ht => reaches_swept hk ht hlast
  have served := swept.trans fun _ ht => reaches_served ht
  rwa [show 2 + 2 * c.val + 2 + 3 = 7 + 2 * c.val by omega] at served

end Invocation

namespace State.ServedAt

variable {s₀ t : State} {c : Line}

/-- The block is Armed after the normal return (R33, R157). -/
theorem armed (h : s₀.ServedAt c t) (hwf : s₀.cfg.wf = true) : t.armed = true := by
  obtain ⟨hch, hw⟩ := Config.wf_bounds _ hwf
  simp [State.armed, State.idle, State.ie, h.hs, h.ier, h.cfg,
    getLsbD_chMask s₀.cfg s₀.cfg.ch (by omega)]

/-- The flag is down after the normal return (R156). -/
theorem is_eq_false (h : s₀.ServedAt c t) (hwf : s₀.cfg.wf = true) : t.is = false := by
  obtain ⟨hch, hw⟩ := Config.wf_bounds _ hwf
  simp [State.is, h.isr, h.cfg, getLsbD_chMask s₀.cfg s₀.cfg.ch (by omega)]

end State.ServedAt

/-- Settles O54: the columns before the key's miss, since they hold no key, and its own column is a hit. -/
theorem singleHeldKeyIsReported : Obligations.SingleHeldKeyIsReported := by
  intro s r c hwf hk honly hr hs his hi
  have hword : columnWord s.held c = (keyAt r c).setWidth 5 :=
    columnWord_sole s.held r c fun r' => by simp [honly r' c]
  have hhit : hitFlag (columnWord s.held c) = true := by
    rw [hword, hitFlag, getLsbD_setWidth_keyCode]
    rfl
  have hmiss (c' : Line) (hc : c' < c) : hitFlag (columnWord s.held c') = false := by
    rw [columnWord_none s.held c' fun r' => by simp [honly r' c', hc.ne]]
    rfl
  obtain ⟨t, hrun, ht⟩ := reaches_servedAt hk ⟨hwf, hr, hs, his, hi⟩ hmiss (.inl hhit)
  refine ⟨t, hrun, ?_, ht.outv, ht.col, ht.armed hwf, ht.is_eq_false hwf, ht.ier, ht.isr⟩
  rw [ht.out, hword, outWord, getLsbD_setWidth_keyCode]
  rfl

end Sys2Proof.Machine
end

section
/-! PROOFS. The step with `rst` low runs what its turn decodes (R108, R159, R198). -/

namespace Sys2Proof.Machine

/-- The code of a state decodes to that state's step (R82). -/
@[simp] theorem decode_hs_code (h : HState) : decode .hs h.code.toNat = .ok (stateInstr h) := by
  rw [decode_hs, decodeState_code]

/-- The controller invokes only an idle block (R181). -/
theorem idle_of_invokeEnabled (s : State) (h : s.invokeEnabled = true) : s.idle = true :=
  (Bool.and_eq_true_iff.mp h).1

/-- An enabled INVOKE runs S_IDLE with the pin pulsed (R150, R181). -/
theorem step_invoke (s : State) (hr : s.rst = false) (hi : s.nextAct = .invoke)
    (he : s.invokeEnabled = true) : step s = exec .sIdle { s.takeAct with invokeI := true } := by
  have hidle := idle_of_invokeEnabled s he
  have hhs : s.hs = .sIdle := by simpa [State.idle] using hidle
  refine step_of_run _ _ _ ?_
  unfold nextTurn
  rw [hr, hi]
  simp [turnRunning, State.busy, hidle, he, hhs, stateInstr]

/-- Settles O1: the decoded instruction is the one that the lemma on the act's step names, and taking the
act off the list is `State.takeAct`. -/
theorem stepRunsDecodedInstruction : Obligations.StepRunsDecodedInstruction := by
  refine fun s i hr => ⟨fun hl hd => ?unlisted, fun rest hl hd => ?seq,
    fun w rest hl hb hd => ?hcmd, fun a rest hl hd => ?rom, fun rest hl he => ?invoke⟩
  case unlisted =>
    obtain rfl := Except.ok.inj ((decode_hs_code s.hs).symm.trans hd)
    rw [step_seq s hr (s.nextAct_nil hl), s.takeAct_nil hl]
  case seq =>
    obtain rfl := Except.ok.inj ((decode_hs_code s.hs).symm.trans hd)
    rw [step_seq s hr (s.nextAct_cons _ rest hl), s.takeAct_cons _ rest hl]
  case hcmd =>
    obtain rfl := Except.ok.inj ((decode_cmd w).symm.trans hd)
    rw [step_hcmd s w hr hb (s.nextAct_cons _ rest hl), s.takeAct_cons _ rest hl]
  case rom =>
    obtain rfl := Except.ok.inj ((decode_dr a).symm.trans hd)
    rw [step_rom s a (s.nextAct_cons _ rest hl), s.takeAct_cons _ rest hl]
  case invoke =>
    rw [step_invoke s hr (s.nextAct_cons _ rest hl) he, s.takeAct_cons _ rest hl]

end Sys2Proof.Machine
end

section
/-! SUPPORT. The rows of format CMD as shared operations on behalf of the port's owner (R100 to R106,
R108), and the interrupt request after an operation on a mask (R204). -/

namespace Sys2Proof.Machine

section CommandRows

variable (s : State)

theorem exec_wrcol (p : Nibble) : exec (.wrcol p) s = .next (opWrcol s.issuer p s) := rfl

theorem exec_rdcmb : exec .rdcmb s = .next (opRdcmb s.issuer s) := rfl

theorem exec_wrout (w : OutWord) : exec (.wrout w) s = .next (opWrout s.issuer w s) := rfl

theorem exec_istat : exec .istat s = .next (opIstat s.issuer s) := rfl

theorem exec_idis (arg : Mask) :
    exec (.idis arg) s = .next (opIdis s.issuer (maskArg s.cfg arg) s) := rfl

theorem exec_iclr (arg : Mask) :
    exec (.iclr arg) s = .next (opIclr s.issuer (maskArg s.cfg arg) s) := rfl

theorem exec_ien (arg : Mask) :
    exec (.ien arg) s = .next (opIen s.issuer (maskArg s.cfg arg) s) := rfl

/-- What depends on the host's owning the port depends on the block's being idle (R108). -/
@[simp] theorem ite_issuer_host {α : Type} (a b : α) :
    (if s.issuer = .host then a else b) = if s.idle = true then a else b := by
  simp only [issuer_eq_host]

end CommandRows

section Request

variable (s : State) {m : Mask}

/-- Clearing the bits of a mask leaves none of them. -/
theorem getLsbD_and_not_of_getLsbD (x : Mask) {i : Nat} (h : m.getLsbD i = true) :
    (x &&& ~~~m).getLsbD i = false := by
  simp [h]

/-- Disabling the keypad's channel takes the request away (R104, R204). -/
theorem opIdis_irq_of_ch (who : Issuer) (h : m.getLsbD s.cfg.ch = true) :
    (opIdis who m s).irq = false := by
  have hie : (opIdis who m s).ie = false := getLsbD_and_not_of_getLsbD s.ier h
  rw [State.irq, hie, Bool.false_and]

/-- Clearing its flag does so too (R105, R204). -/
theorem opIclr_irq_of_ch (who : Issuer) (h : m.getLsbD s.cfg.ch = true) :
    (opIclr who m s).irq = false := by
  have his : (opIclr who m s).is = false := getLsbD_and_not_of_getLsbD s.isr h
  rw [State.irq, his, Bool.and_false]

/-- With the channel enabled the request is its flag (R106, R204). -/
theorem opIen_irq_of_ch (who : Issuer) (h : m.getLsbD s.cfg.ch = true) :
    (opIen who m s).irq = s.is := by
  have hie : (opIen who m s).ie = true := by
    change (s.ier ||| m).getLsbD s.cfg.ch = true
    rw [BitVec.getLsbD_or, h, Bool.or_true]
  have his : (opIen who m s).is = s.is := rfl
  rw [State.irq, hie, his, Bool.true_and]

end Request

/-- A read of the combined word from the state whose row sample is used up (R101, R183). -/
theorem opRdcmb_eq_consumeRow (s : State) (who : Issuer) :
    opRdcmb who s
      = { consumeRow s with
          hrdata := if who = .host then some (combinedWord s) else s.hrdata
          trace := s.trace ++ [.op who (.rdcmb (combinedWord s))] } := by
  rw [opRdcmb_eq, consumeRow_eq]

/-- A written output latch shows on the sink pins (R40, R102). -/
@[simp] theorem opWrout_outO (s : State) (who : Issuer) (w : OutWord) :
    (opWrout who w s).outO = w := rfl

end Sys2Proof.Machine
end

section
/-! PROOFS. The seven peripheral operations: the word of each, its effect and what it leaves unchanged
(R100 to R106). -/

namespace Sys2Proof.Machine

/-- Settles O6: the row is `opWrcol` for the port's owner. -/
theorem wrcolWritesColumns : Obligations.WrcolWritesColumns :=
  ⟨fun _ => decodeCmd_wrcol, fun p s => ⟨_, exec_wrcol s p, rfl, opWrcol_eq s s.issuer p⟩⟩

/-- Settles O7: the value is `combinedWord`, whose halves are the sample and `COL`, and the read moves the
oracle as `consumeRow` does. -/
theorem rdcmbReadsRowsAndColumns : Obligations.RdcmbReadsRowsAndColumns := by
  refine ⟨fun _ => decodeCmd_rdcmb, fun s => ⟨opRdcmb s.issuer s, combinedWord s, exec_rdcmb s,
    rowSel_combinedWord s, combinedWord_cols s, ?_, consumeRow_eq s⟩⟩
  rw [opRdcmb_eq_consumeRow, ite_issuer_host]

/-- Settles O8: the row is `opWrout` for the port's owner, and the pins read the latch it wrote. -/
theorem wroutWritesOutputLatch : Obligations.WroutWritesOutputLatch :=
  ⟨fun _ => decodeCmd_wrout,
    fun w s => ⟨_, exec_wrout s w, opWrout_outO s s.issuer w, opWrout_eq s s.issuer w⟩⟩

/-- Settles O9: the row is `opIstat` for the port's owner, who is the host exactly while idle. -/
theorem istatReturnsWholeStatus : Obligations.IstatReturnsWholeStatus := by
  refine ⟨fun _ => decodeCmd_istat, fun s => ?_⟩
  rw [exec_istat, opIstat_eq, ite_issuer_host]

/-- Settles O10: the row is `opIdis` of the argument's mask bits. -/
theorem idisClearsEnableBits : Obligations.IdisClearsEnableBits :=
  ⟨fun _ => decodeCmd_idis, fun arg s =>
    ⟨_, exec_idis s arg, opIdis_eq s s.issuer _, opIdis_irq_of_ch s s.issuer⟩⟩

/-- Settles O11: the row is `opIclr` of the argument's mask bits. -/
theorem iclrClearsStatusBits : Obligations.IclrClearsStatusBits :=
  ⟨fun _ => decodeCmd_iclr, fun arg s =>
    ⟨_, exec_iclr s arg, opIclr_eq s s.issuer _, opIclr_irq_of_ch s s.issuer⟩⟩

/-- Settles O12: the row is `opIen` of the argument's mask bits. -/
theorem ienSetsEnableBits : Obligations.IenSetsEnableBits :=
  ⟨fun _ => decodeCmd_ien, fun arg s =>
    ⟨_, exec_ien s arg, opIen_eq s s.issuer _, opIen_irq_of_ch s s.issuer⟩⟩

end Sys2Proof.Machine
end

section
/-! PROOFS. The decoder's hits (R75, R77, R126), its rows as instructions (R125), and the rotation of the
column patterns (R121, R123). -/

namespace Sys2Proof.Machine

/-- The ROM's word for a pair: the table's code zero-extended, or the value of a miss (R76). -/
theorem romRead_romAddr (rb p : Nibble) :
    romRead (romAddr rb p) = (lookupTable p rb).elim 0x10#5 (·.setWidth 5) := by
  unfold romRead romAddr
  rw [BitVec.extractLsb'_append_eq_left, BitVec.extractLsb'_append_eq_right]
  cases lookupTable p rb <;> rfl

/-- The only word of the ROM with the miss flag set is `0x10` (R29, R76). -/
theorem romRead_getLsbD_iff (a : RomAddr) :
    (romRead a).getLsbD 4 = true ↔ romRead a = 0x10#5 := by
  refine ⟨fun h => ?_, fun h => by rw [h]; rfl⟩
  unfold romRead at h ⊢
  cases hl : lookupTable (a.extractLsb' 0 4) (a.extractLsb' 4 4) with
  | none => rfl
  | some code =>
    rw [hl] at h
    exact absurd h (by simp only [getLsbD_setWidth_keyCode]; decide)

/-- A pair is a hit exactly when both halves have one line low (R126). -/
theorem romRead_hit_iff (p rb : Nibble) :
    (romRead (romAddr rb p)).getLsbD 4 = false ↔ oneLow p = true ∧ oneLow rb = true := by
  rw [← Bool.not_eq_true, romRead_getLsbD_iff, romRead_eq_miss_iff, not_not, mem_hitAddrs_iff,
    romAddr, BitVec.extractLsb'_append_eq_left, BitVec.extractLsb'_append_eq_right, and_comm]

/-- One line low is the form of the four patterns (R71). -/
theorem oneLow_iff (v : Nibble) : oneLow v = true ↔ ∃ c : Line, v = colPattern c := by
  revert v
  decide

/-- A hit is the pair of some position of the matrix (R87, R126). -/
theorem exists_key_of_hit {p rb : Nibble} (h : (romRead (romAddr rb p)).getLsbD 4 = false) :
    ∃ r c : Line, rb = colPattern r ∧ p = colPattern c := by
  obtain ⟨hp, hrb⟩ := (romRead_hit_iff p rb).mp h
  obtain ⟨c, hc⟩ := (oneLow_iff p).mp hp
  obtain ⟨r, hr⟩ := (oneLow_iff rb).mp hrb
  exact ⟨r, c, hr, hc⟩

/-- Settles O17: two hits are the pairs of two positions of the matrix, and those have codes apart. -/
theorem decoderIsInjectiveOnHits : Obligations.DecoderIsInjectiveOnHits := by
  refine ⟨romRead_hit_iff, fun p rb p' rb' hhit heq => ?_, romRead_colPattern⟩
  obtain ⟨r, c, rfl, rfl⟩ := exists_key_of_hit hhit
  obtain ⟨r', c', rfl, rfl⟩ := exists_key_of_hit (heq ▸ hhit)
  rw [romRead_colPattern, romRead_colPattern] at heq
  have hcode : keyAt r c = keyAt r' c' := by
    simpa using congrArg (BitVec.setWidth 4) heq
  obtain ⟨rfl, rfl⟩ := keyAt_injective r c r' c' hcode
  exact ⟨rfl, rfl⟩

/-- The default row reads the ROM at the address of its operands (R77, R125). -/
theorem exec_keydecMiss (rows cols : Nibble) (s : State) :
    exec (.keydecMiss rows cols) s = .next (opKeydec (romAddr rows cols) s) := rfl

/-- Settles O18: the row of each key reads its one address; those of the default row hold a miss. -/
theorem keydecRowsRunInEveryState : Obligations.KeydecRowsRunInEveryState := by
  refine fun s => ⟨rfl, rfl, rfl, rfl, rfl, rfl, rfl, rfl, rfl, rfl, rfl, rfl, rfl, rfl, rfl, rfl,
    fun rows cols hwf => ?_⟩
  have hmiss : romRead (romAddr rows cols) = 0x10#5 :=
    (romRead_eq_miss_iff _).mpr ((wf_keydecMiss_iff rows cols).mp hwf)
  rw [exec_keydecMiss, opKeydec, hmiss]

/-- `c` rotations of the first pattern drive column line `c` (R121, R123). -/
theorem rotl4Iter_line (c : Line) : rotl4Iter c.val 0b1110#4 = colPattern c := by
  induction c using Fin.induction with
  | zero => rfl
  | succ i ih =>
    rw [← Fin.coeSucc_eq_succ, ← rotl4_colPattern, ← ih, Fin.coeSucc_eq_succ]
    rfl

/-- Settles O28: the bits of a rotation for each value, the sequence by `rotl4Iter_line`. -/
theorem columnPatternsRotate : Obligations.ColumnPatternsRotate :=
  ⟨by decide, by decide, rfl, rotl4Iter_line⟩

end Sys2Proof.Machine
end

section
/-! PROOFS. An invocation under the nominal keypad with any keys held (R128, R130, R134, R184): what a
column's decode says of its keys, and the column at which the sweep ends. -/

namespace Sys2Proof.Machine

section Columns

variable (held : Vector Bool 16)

/-- A row pin is high when its row line is not pulled low (R184). -/
theorem getLsbD_keypadRows (col : Nibble) (r : Line) :
    (keypadRows held col).getLsbD r.val = !rowLow held col r := by
  unfold keypadRows
  generalize rowLow held col = low
  have hbits : ∀ b₀ b₁ b₂ b₃ : Bool, ∀ i : Line,
      (BitVec.ofBool b₃ ++ BitVec.ofBool b₂ ++ BitVec.ofBool b₁ ++ BitVec.ofBool b₀).getLsbD i.val
        = ![b₀, b₁, b₂, b₃] i := by decide
  refine (hbits _ _ _ _ r).trans ?_
  fin_cases r <;> rfl

theorem getLsbD_colPattern (r r' : Line) :
    (colPattern r).getLsbD r'.val = !decide (r' = r) := by
  revert r r'
  decide

/-- A column's decode is a hit exactly when one of its keys is held and no other (R126, R134). -/
theorem hitFlag_columnWord_iff (c : Line) :
    hitFlag (columnWord held c) = true ↔
      ∃ r : Line, ∀ r' : Line, keyHeld held r' c = decide (r' = r) := by
  constructor
  · intro h
    obtain ⟨r, -, hrow, -⟩ := exists_key_of_hit (Bool.not_inj (y := false) h)
    refine ⟨r, fun r' => ?_⟩
    have hbit := getLsbD_keypadRows held (colPattern c) r'
    rw [hrow, getLsbD_colPattern, rowLow_colPattern] at hbit
    exact (Bool.not_inj hbit).symm
  · rintro ⟨r, h⟩
    rw [columnWord_sole held r c h, hitFlag, getLsbD_setWidth_keyCode]
    rfl

/-- The word of a column that misses is `0x10` (R76). -/
theorem columnWord_of_miss (c : Line) (h : hitFlag (columnWord held c) = false) :
    columnWord held c = 0x10#5 :=
  (romRead_getLsbD_iff _).mp (Bool.not_inj h)

end Columns

/-- With no key held no column has a key held alone. -/
theorem not_soleKeyOf_of_none {s : State} (h : ∀ r c : Line, keyHeld s.held r c = false)
    (r c : Line) : ¬ s.SoleKeyOf r c := fun hsole => by
  simpa [h] using hsole r

/-- The word written for a key is its code (R83, R155). -/
theorem outWord_keyCode (c : Config) (code : KeyCode) :
    outWord c (code.setWidth 5) = code.setWidth 5 := by
  rw [outWord, getLsbD_setWidth_keyCode]
  rfl

section KeysHeld

variable {s : State}

/-- The column of a key held alone is a hit. -/
theorem hit_of_soleKeyOf {r c : Line} (h : s.SoleKeyOf r c) :
    hitFlag (columnWord s.held c) = true :=
  (hitFlag_columnWord_iff s.held c).mpr ⟨r, h⟩

/-- A column with no key held alone misses. -/
theorem miss_of_noSole {c : Line} (h : ∀ r : Line, ¬ s.SoleKeyOf r c) :
    hitFlag (columnWord s.held c) = false := by
  rw [← Bool.not_eq_true, hitFlag_columnWord_iff]
  exact fun ⟨r, hsole⟩ => h r hsole

theorem columnWord_of_noSole {c : Line} (h : ∀ r : Line, ¬ s.SoleKeyOf r c) :
    columnWord s.held c = 0x10#5 :=
  columnWord_of_miss s.held c (miss_of_noSole h)

/-- With no column that has a key held alone the sweep ends at the last (R130). -/
theorem reaches_servedAt_noSole (hk : s.cfg.rowsEnv = .keypad) (hb : s.BeginsService)
    (hnone : ∀ r c : Line, ¬ s.SoleKeyOf r c) : s.Reaches 13 (s.ServedAt 3) :=
  reaches_servedAt hk hb (fun c' _ => miss_of_noSole (hnone · c')) (.inr rfl)

end KeysHeld

/-- Settles O60: the sweep ends at the first column with a key held alone, else at the last. -/
theorem invocationWithSeveralKeysHeld : Obligations.InvocationWithSeveralKeysHeld := by
  refine fun s hwf hk hr hs his hi => ⟨fun r c hsole hfirst => ?sole, fun hnone => ?none⟩
  case sole =>
    have hmiss (c' : Line) (hc : c' < c) : hitFlag (columnWord s.held c') = false :=
      miss_of_noSole (hfirst · c' hc)
    obtain ⟨t, hrun, ht⟩ :=
      reaches_servedAt hk ⟨hwf, hr, hs, his, hi⟩ hmiss (.inl (hit_of_soleKeyOf hsole))
    refine ⟨t, hrun, ?_, ht.outv, ht.col, ht.armed hwf, ht.is_eq_false hwf, ht.ier, ht.isr⟩
    rw [ht.out, columnWord_sole _ r c hsole, outWord_keyCode]
  case none =>
    obtain ⟨t, hrun, ht⟩ := reaches_servedAt_noSole hk ⟨hwf, hr, hs, his, hi⟩ hnone
    refine ⟨t, hrun, ?_, ht.outv, ht.col, ht.armed hwf, ht.is_eq_false hwf, ht.ier, ht.isr⟩
    rw [ht.out, columnWord_of_noSole (hnone · 3)]
    rfl

/-- Settles O55: with no key held there is no column with a key held alone. -/
theorem noKeyHeldWritesNoKeyValue : Obligations.NoKeyHeldWritesNoKeyValue := by
  intro s hwf hk hempty hr hs his hi
  have hnone := not_soleKeyOf_of_none hempty
  have hword := columnWord_of_noSole (hnone · 3)
  obtain ⟨t, hrun, ht⟩ := reaches_servedAt_noSole hk ⟨hwf, hr, hs, his, hi⟩ hnone
  refine ⟨t, hrun, ?_, ht.outv, ht.res.trans hword, ht.col, ht.armed hwf, ht.is_eq_false hwf⟩
  rw [ht.out, hword]
  rfl

end Sys2Proof.Machine
end

section
/-! PROOFS. SCAN (R127 to R131) as a loop over the column lines, under both row environments (R183, R184). -/

namespace Sys2Proof.Machine

/-- What a sweep that has tried `n` columns has appended to the trace: two events for each, and no write of
a later column's pattern (R127, R128). -/
def TriedColumns (n : Nat) (old new : List Event) : Prop :=
  ∃ es : List Event, new = old ++ es ∧ es.length = 2 * n
    ∧ ∀ c : Line, n ≤ c.val → Event.op .sequencer (.wrcol (colPattern c)) ∉ es

theorem TriedColumns.none (old : List Event) : TriedColumns 0 old old :=
  ⟨[], (List.append_nil old).symm, rfl, fun _ _ => List.not_mem_nil⟩

theorem colPattern_injective (c c' : Line) (h : colPattern c = colPattern c') : c = c' := by
  revert c c'
  decide

/-- The two events of column `c` (R127). -/
theorem TriedColumns.column {c : Line} {old new : List Event} (v : Combined)
    (h : TriedColumns c.val old new) :
    TriedColumns (c.val + 1) old
      (new ++ [.op .sequencer (.wrcol (colPattern c))] ++ [.op .sequencer (.rdcmb v)]) := by
  obtain ⟨es, rfl, hlen, hlater⟩ := h
  refine ⟨es ++ [.op .sequencer (.wrcol (colPattern c)), .op .sequencer (.rdcmb v)],
    by simp, by simp [hlen, Nat.mul_add], fun c' hc => ?_⟩
  have hlt : c < c' := hc
  have hpat : colPattern c' ≠ colPattern c := fun h => hlt.ne' (colPattern_injective c' c h)
  simp [hlater c' (by omega), hpat]

namespace TriedColumns

variable {n : Nat} {old new : List Event}

theorem length (h : TriedColumns n old new) : new.length = old.length + 2 * n := by
  obtain ⟨es, rfl, hlen, -⟩ := h
  rw [List.length_append, hlen]

theorem not_mem_drop (h : TriedColumns n old new) {c : Line} (hc : n ≤ c.val) :
    Event.op .sequencer (.wrcol (colPattern c)) ∉ new.drop old.length := by
  obtain ⟨es, rfl, -, hlater⟩ := h
  rw [List.drop_left]
  exact hlater c hc

end TriedColumns

/-- What no part of a sweep writes (R127, R129). -/
structure State.ScanFrame (s₀ s : State) : Prop where
  cfg : s.cfg = s₀.cfg
  held : s.held = s₀.held
  ier : s.ier = s₀.ier
  isr : s.isr = s₀.isr
  out : s.out = s₀.out
  outv : s.outv = s₀.outv
  hs : s.hs = s₀.hs

/-- The sweep from `s₀` is about to try column `c`. -/
structure State.ScansAt (s₀ : State) (c : Line) (s : State) : Prop
    extends State.ScanFrame s₀ s where
  k : s.k = BitVec.ofNat 2 c.val
  p : s.p = colPattern c
  trace : TriedColumns c.val s₀.trace s.trace
  rows : s₀.cfg.rowsEnv = .free → s.rows = s₀.rows.drop c.val

/-- The sweep from `s₀` has tried column `c`. -/
structure State.ScannedAt (s₀ : State) (c : Line) (t : State) : Prop
    extends State.ScanFrame s₀ t where
  k : t.k = BitVec.ofNat 2 c.val
  p : t.p = colPattern c
  col : t.col = colPattern c
  trace : TriedColumns (c.val + 1) s₀.trace t.trace
  rows : s₀.cfg.rowsEnv = .free → t.rows = s₀.rows.drop (c.val + 1)

/-- SCANSTEP as one update of the state (R127). -/
theorem scanStep_eq (s : State) :
    scanStep s
      = { opWrcol .sequencer s.p s with
          rows := (consumeRow (opWrcol .sequencer s.p s)).rows
          free := (consumeRow (opWrcol .sequencer s.p s)).free
          res := romRead (romAddr (rowSample (opWrcol .sequencer s.p s)) s.p)
          romOut := romRead (romAddr (rowSample (opWrcol .sequencer s.p s)) s.p)
          trace := s.trace ++ [.op .sequencer (.wrcol s.p)]
            ++ [.op .sequencer (.rdcmb (combinedWord (opWrcol .sequencer s.p s)))] } := by
  rw [scanStep, opScanRead_eq, rowSel_combinedWord]
  rfl

theorem scanStep_res (s : State) :
    (scanStep s).res = romRead (romAddr (rowSample (opWrcol .sequencer s.p s)) s.p) := by
  rw [scanStep_eq]

/-- A read under `FREE` takes the first listed sample off, if there is one (R183). -/
theorem consumeRow_rows_free (s : State) (he : s.cfg.rowsEnv = .free) :
    (consumeRow s).rows = s.rows.tail := by
  cases hl : s.rows with
  | nil => rw [consumeRow_free_nil s he hl, hl]; rfl
  | cons r rs => rw [consumeRow_free_cons s r rs he hl]; rfl

theorem rowSample_free_cons (s : State) (r : Nibble) (rs : List Nibble)
    (he : s.cfg.rowsEnv = .free) (hl : s.rows = r :: rs) : rowSample s = r := by
  unfold rowSample
  rw [he, hl]

section Loop

variable {s₀ s : State} {c : Line} {n : Nat}

/-- The sweep starts at the first column (R122). -/
theorem scansAt_colInit (s : State) : s.ScansAt 0 (opColInit s) :=
  ⟨⟨rfl, rfl, rfl, rfl, rfl, rfl, rfl⟩, rfl, rfl, .none _, fun _ => rfl⟩

theorem State.ScansAt.scanStep (h : s₀.ScansAt c s) : s₀.ScannedAt c (scanStep s) := by
  have htrace := h.trace.column (combinedWord (opWrcol .sequencer s.p s))
  rw [← h.p] at htrace
  have hrows (he : s₀.cfg.rowsEnv = .free) :
      (consumeRow (opWrcol .sequencer s.p s)).rows = s₀.rows.drop (c.val + 1) := by
    rw [consumeRow_rows_free _ (h.cfg ▸ he), ← List.tail_drop, ← h.rows he]
    rfl
  rw [scanStep_eq]
  exact ⟨⟨h.cfg, h.held, h.ier, h.isr, h.out, h.outv, h.hs⟩, h.k, h.p, h.p, htrace, hrows⟩

theorem State.ScannedAt.nextCol (h : s₀.ScannedAt c s) (hc : c ≠ 3) :
    s₀.ScansAt (c + 1) (opNextCol s) := by
  have hval : (c + 1).val = c.val + 1 := Fin.val_add_one_of_lt (Fin.lt_last_iff_ne_last.mpr hc)
  refine ⟨⟨h.cfg, h.held, h.ier, h.isr, h.out, h.outv, h.hs⟩, ?k, ?p, hval ▸ h.trace,
    hval ▸ h.rows⟩
  case k => rw [opNextCol_k, h.k, ofNat_line_succ]
  case p => rw [opNextCol_p, h.p, rotl4_colPattern]

/-- A hit, or the last column, ends the loop (R129). -/
theorem scanLoop_last (h : hitFlag (scanStep s).res = true ∨ (scanStep s).k = 3#2) :
    scanLoop (n + 1) s = scanStep s := by
  unfold scanLoop
  by_cases hit : hitFlag (scanStep s).res = true
  · simp only [if_pos hit]
  · simp only [if_neg hit, if_pos (h.resolve_left hit)]

/-- A miss before the last column goes on (R129). -/
theorem scanLoop_advance (hit : hitFlag (scanStep s).res = false) (hk : (scanStep s).k ≠ 3#2) :
    scanLoop (n + 1) s = scanLoop n (opNextCol (scanStep s)) := by
  conv => lhs; unfold scanLoop
  simp only [hit, if_neg hk, Bool.false_eq_true, if_false]

/-- At each column the decoder gives the sweep from `s₀` the word of `word`. -/
def State.Decodes (s₀ : State) (word : Line → DecodeResult) : Prop :=
  ∀ (c : Line) (s : State), s₀.ScansAt c s → (scanStep s).res = word c

variable {word : Line → DecodeResult}

/-- SCAN comes to column `c` when every column before it misses. -/
theorem scan_eq_scanLoop (hw : s₀.Decodes word) (hmiss : ∀ c' < c, hitFlag (word c') = false) :
    ∃ s, s₀.ScansAt c s ∧ scan s₀ = scanLoop (4 - c.val) s := by
  induction c using Fin.induction with
  | zero => exact ⟨opColInit s₀, scansAt_colInit s₀, rfl⟩
  | succ i ih =>
    obtain ⟨s, hs, heq⟩ := ih fun c' hc => hmiss c' (hc.trans i.castSucc_lt_succ)
    have hlast : i.castSucc ≠ 3 := i.castSucc_ne_last
    have hk : (scanStep s).k ≠ 3#2 := by
      rwa [hs.scanStep.k, Ne, ofNat_line_eq_three_iff]
    have hmissed : hitFlag (scanStep s).res = false := by
      rw [hw _ s hs, hmiss _ i.castSucc_lt_succ]
    refine ⟨_, Fin.coeSucc_eq_succ ▸ hs.scanStep.nextCol hlast, ?_⟩
    have hleft : 4 - i.castSucc.val = 4 - i.succ.val + 1 := by
      rw [Fin.val_castSucc, Fin.val_succ]
      omega
    rw [heq, hleft, scanLoop_advance hmissed hk]

/-- SCAN ends at column `c` when the columns before it miss and it is a hit or the last (R129, R131). -/
theorem scan_scannedAt (hw : s₀.Decodes word) (hmiss : ∀ c' < c, hitFlag (word c') = false)
    (hlast : hitFlag (word c) = true ∨ c = 3) :
    s₀.ScannedAt c (scan s₀) ∧ (scan s₀).res = word c := by
  obtain ⟨s, hs, heq⟩ := scan_eq_scanLoop hw hmiss
  have ends : hitFlag (scanStep s).res = true ∨ (scanStep s).k = 3#2 := by
    rwa [hw c s hs, hs.scanStep.k, ofNat_line_eq_three_iff]
  rw [show 4 - c.val = 3 - c.val + 1 by omega, scanLoop_last ends] at heq
  rw [heq]
  exact ⟨hs.scanStep, hw c s hs⟩

end Loop

/-- Under the nominal keypad the words are those of the held keys (R184). -/
theorem decodes_keypad {s : State} (hk : s.cfg.rowsEnv = .keypad) :
    s.Decodes (columnWord s.held) := by
  intro c u hu
  rw [scanStep_res, rowSample_keypad (opWrcol .sequencer u.p u) (hu.cfg ▸ hk)]
  change romRead (romAddr (keypadRows u.held u.p) u.p) = _
  rw [hu.held, hu.p, columnWord]

/-- A sweep ends somewhere: at the first hit, or at the last column (R129, R133). -/
theorem exists_lastColumn (word : Line → DecodeResult) :
    ∃ c : Line, (∀ c' < c, hitFlag (word c') = false) ∧ (hitFlag (word c) = true ∨ c = 3) := by
  by_cases h : ∃ c : Line, hitFlag (word c) = true
  · obtain ⟨c, hit, hfirst⟩ := wellFounded_lt.has_min {c : Line | hitFlag (word c) = true} h
    exact ⟨c, fun c' hc => Bool.eq_false_iff.mpr fun hhit => hfirst c' hhit hc, .inl hit⟩
  · exact ⟨3, fun c' _ => Bool.eq_false_iff.mpr fun hhit => h ⟨c', hhit⟩, .inr rfl⟩

/-- A sweep leaves what `State.ScanFrame` lists, whatever it finds. -/
theorem scan_frame {s : State} {word : Line → DecodeResult} (hw : s.Decodes word) :
    s.ScanFrame (scan s) := by
  obtain ⟨c, hmiss, hlast⟩ := exists_lastColumn word
  exact (scan_scannedAt hw hmiss hlast).1.toScanFrame

/-- Settles O58: SCAN ends at the first column with a key held alone, else at the last. -/
theorem keypadSweepReportsFirstSoleKey : Obligations.KeypadSweepReportsFirstSoleKey := by
  intro s hk
  have hw := decodes_keypad hk
  have hframe := scan_frame hw
  refine ⟨fun r c hsole hfirst => ?sole, fun hnone => ?none,
    hframe.ier, hframe.isr, hframe.out, hframe.outv, hframe.held⟩
  case sole =>
    have hmiss (c' : Line) (hc : c' < c) : hitFlag (columnWord s.held c') = false :=
      miss_of_noSole (hfirst · c' hc)
    obtain ⟨h, hres⟩ := scan_scannedAt hw hmiss (.inl (hit_of_soleKeyOf hsole))
    refine ⟨hres.trans (columnWord_sole _ r c hsole), ?_, h.p, h.col, h.trace.length,
      fun c' hc => h.trace.not_mem_drop hc⟩
    rw [h.k, BitVec.toNat_ofNat, Nat.mod_eq_of_lt c.isLt]
  case none =>
    obtain ⟨h, hres⟩ :=
      scan_scannedAt (c := 3) hw (fun c' _ => miss_of_noSole (hnone · c')) (.inr rfl)
    exact ⟨hres.trans (columnWord_of_noSole (hnone · 3)), h.k, h.p, h.col, h.trace.length⟩

section FreeSweep

variable (rbs : Line → Nibble)

/-- What the decoder gives for column `c` when its row reading is `rbs c`. -/
def readingWord (c : Line) : DecodeResult := romRead (romAddr (rbs c) (colPattern c))

/-- A reading is a hit when the table lists it (R75, R125). -/
theorem hitFlag_readingWord (c : Line) :
    hitFlag (readingWord rbs c) = (lookupTable (colPattern c) (rbs c)).isSome := by
  rw [readingWord, romRead_romAddr]
  cases lookupTable (colPattern c) (rbs c) with
  | none => rfl
  | some code => exact congrArg not (getLsbD_setWidth_keyCode code)

variable {rbs}

/-- Under `FREE` the words are those of the listed samples, in order (R183). -/
theorem decodes_free {s : State} {rest : List Nibble} (he : s.cfg.rowsEnv = .free)
    (hl : s.rows = rbs 0 :: rbs 1 :: rbs 2 :: rbs 3 :: rest) : s.Decodes (readingWord rbs) := by
  intro c u hu
  have hnext : s.rows.drop c.val = rbs c :: s.rows.drop (c.val + 1) := by
    rw [hl]
    fin_cases c <;> rfl
  rw [scanStep_res, hu.p, readingWord,
    rowSample_free_cons (opWrcol .sequencer _ u) (rbs c) _ (hu.cfg ▸ he)
      ((hu.rows he).trans hnext)]

theorem sweepLength_eq (rbs : Line → Nibble) :
    sweepLength (rbs 0) (rbs 1) (rbs 2)
      = if (lookupTable (colPattern 0) (rbs 0)).isSome then 1
        else if (lookupTable (colPattern 1) (rbs 1)).isSome then 2
        else if (lookupTable (colPattern 2) (rbs 2)).isSome then 3 else 4 := rfl

theorem sweepResult_eq (rbs : Line → Nibble) :
    sweepResult (rbs 0) (rbs 1) (rbs 2) (rbs 3)
      = (lookupTable (colPattern 0) (rbs 0)).or ((lookupTable (colPattern 1) (rbs 1)).or
        ((lookupTable (colPattern 2) (rbs 2)).or (lookupTable (colPattern 3) (rbs 3)))) := by
  simp [sweepResult, colPattern]

/-- `sweepLength` and `sweepResult` at the column that ends the sweep (R129, R130). -/
theorem sweep_of_lastColumn {c : Line} (hmiss : ∀ c' < c, hitFlag (readingWord rbs c') = false)
    (hlast : hitFlag (readingWord rbs c) = true ∨ c = 3) :
    sweepLength (rbs 0) (rbs 1) (rbs 2) = c.val + 1
      ∧ sweepResult (rbs 0) (rbs 1) (rbs 2) (rbs 3) = lookupTable (colPattern c) (rbs c) := by
  simp only [hitFlag_readingWord, Option.isSome_eq_false_iff, Option.isNone_iff_eq_none]
    at hmiss hlast
  match c with
  | 0 =>
    obtain ⟨code, h0⟩ := Option.isSome_iff_exists.mp (hlast.resolve_right (by decide))
    simp [sweepLength_eq, sweepResult_eq, h0]
  | 1 =>
    obtain ⟨code, h1⟩ := Option.isSome_iff_exists.mp (hlast.resolve_right (by decide))
    simp [sweepLength_eq, sweepResult_eq, hmiss 0 (by decide), h1]
  | 2 =>
    obtain ⟨code, h2⟩ := Option.isSome_iff_exists.mp (hlast.resolve_right (by decide))
    simp [sweepLength_eq, sweepResult_eq, hmiss 0 (by decide), hmiss 1 (by decide), h2]
  | 3 =>
    simp [sweepLength_eq, sweepResult_eq, hmiss 0 (by decide), hmiss 1 (by decide),
      hmiss 2 (by decide)]

end FreeSweep

/-- Settles O51: the words are those of the first four listed samples, and the column that ends the sweep
is the one `sweepLength` and `sweepResult` name. -/
theorem sweepIsFirstMatch : Obligations.SweepIsFirstMatch := by
  intro s rb0 rb1 rb2 rb3 rest he hl
  have hw : s.Decodes (readingWord ![rb0, rb1, rb2, rb3]) := decodes_free he hl
  obtain ⟨c, hmiss, hlast⟩ := exists_lastColumn (readingWord ![rb0, rb1, rb2, rb3])
  obtain ⟨h, hres⟩ := scan_scannedAt hw hmiss hlast
  obtain ⟨hlength, hresult⟩ := sweep_of_lastColumn hmiss hlast
  change sweepLength rb0 rb1 rb2 = _ at hlength
  change sweepResult rb0 rb1 rb2 rb3 = _ at hresult
  rw [readingWord, romRead_romAddr, ← hresult] at hres
  intro n t
  have hn : n - 1 = c.val := by omega
  rw [hn, rotl4Iter_line]
  refine ⟨?res, h.k, h.p, h.col.trans h.p.symm, ?rows, ?trace, h.ier, h.isr, h.out, h.outv, h.hs⟩
  case res =>
    rw [hres]
    cases sweepResult rb0 rb1 rb2 rb3 <;> rfl
  case rows => exact (h.rows he).trans (by rw [← hlength])
  case trace => exact h.trace.length.trans (by rw [← hlength])

end Sys2Proof.Machine
end

section
/-! SUPPORT. The rows of format HS as one update of the state each (R150 to R157), and what a step of the
sequencer can be (R159). -/

namespace Sys2Proof.Machine

section StateRows

variable (s : State)

/-- S_IDLE with a pulse on `invoke_i` takes the interrupt and uses the pulse up (R150). -/
theorem exec_sIdle_pulsed (h : s.invokeI = true) :
    exec .sIdle s
      = .next { s with hs := .sDis, invokeI := false, trace := s.trace ++ [.invoke] } :=
  congrArg Host.Outcome.next (if_pos h)

theorem exec_sDis_eq :
    exec .sDis s
      = .next { s with
          ier := s.ier &&& ~~~chMask s.cfg, hs := .sChk
          trace := s.trace ++ [.op .sequencer (.idis (chMask s.cfg))] } := rfl

theorem exec_sChk_confirmed_eq (h : confirmFlag s.cfg s.isr = true) :
    exec .sChk s
      = .next { s with
          p := 0b1110#4, k := 0#2, res := 0x10#5, hs := .sCol
          trace := s.trace ++ [.op .sequencer (.istat s.isr)] } :=
  exec_sChk_confirmed s h

theorem exec_sChk_early_eq (h : confirmFlag s.cfg s.isr ≠ true) :
    exec .sChk s
      = .next { s with
          hs := .sIdle, ret := true
          trace := s.trace ++ [.op .sequencer (.istat s.isr), .ret .early] } := by
  rw [exec_sChk_early s h, returnFromHandler_eq, opIstat_trace, List.append_assoc]
  rfl

theorem exec_sCol_eq :
    exec .sCol s
      = .next { s with
          col := s.p, hs := .sRd, trace := s.trace ++ [.op .sequencer (.wrcol s.p)] } := rfl

/-- The word the decoder gives S_RD (R154). -/
def State.scanWord (s : State) : DecodeResult := romRead (romAddr (rowSample s) s.p)

/-- The read half of S_RD, whatever it decides (R127, R154). -/
def State.scanned (s : State) : State :=
  { s with
    rows := (consumeRow s).rows, free := (consumeRow s).free
    res := s.scanWord, romOut := s.scanWord
    trace := s.trace ++ [.op .sequencer (.rdcmb (combinedWord s))] }

theorem opScanRead_eq_scanned : opScanRead s = s.scanned := by
  rw [opScanRead_eq, rowSel_combinedWord]
  rfl

theorem exec_sRd_last_eq (h : hitFlag s.scanWord = true ∨ s.k = 3#2) :
    exec .sRd s = .next (s.scanned.goto .sOut) := by
  have ends := exec_sRd_last s
  rw [opScanRead_eq_scanned] at ends
  exact ends h

theorem exec_sRd_advance_eq (h : ¬(hitFlag s.scanWord = true ∨ s.k = 3#2)) :
    exec .sRd s = .next ((opNextCol s.scanned).goto .sCol) := by
  have goes_on := exec_sRd_advance s
  rw [opScanRead_eq_scanned] at goes_on
  exact goes_on h

theorem exec_sOut_eq :
    exec .sOut s
      = .next { s with
          out := outWord s.cfg s.res, outv := true, outWe := true, hs := .sClr
          trace := s.trace ++ [.op .sequencer (.wrout (outWord s.cfg s.res))] } := rfl

theorem exec_sClr_eq :
    exec .sClr s
      = .next { s with
          isr := s.isr &&& ~~~chMask s.cfg, hs := .sEn
          trace := s.trace ++ [.op .sequencer (.iclr (chMask s.cfg))] } := rfl

theorem exec_sEn_eq :
    exec .sEn s
      = .next { s with
          ier := s.ier ||| chMask s.cfg, hs := .sIdle, ret := true
          trace := s.trace ++ [.op .sequencer (.ien (chMask s.cfg)), .ret .normal] } := by
  change Host.Outcome.next (returnFromHandler .normal (opIen .sequencer (chMask s.cfg) s)) = _
  rw [returnFromHandler_eq, opIen_trace, List.append_assoc]
  rfl

end StateRows

/-- What the step of a state comes to, with the branch it takes (R159). -/
inductive SeqCase (s : State) : HState → State → Prop where
  /-- S_IDLE without a pulse (R150). -/
  | waits (hp : s.invokeI = false) : SeqCase s .sIdle s
  /-- S_IDLE with one (R150). -/
  | invoked (hp : s.invokeI = true) : SeqCase s .sIdle
      { s with hs := .sDis, invokeI := false, trace := s.trace ++ [.invoke] }
  /-- S_DIS (R151). -/
  | disabled : SeqCase s .sDis
      { s with
        ier := s.ier &&& ~~~chMask s.cfg, hs := .sChk
        trace := s.trace ++ [.op .sequencer (.idis (chMask s.cfg))] }
  /-- S_CHK with the flag up (R152). -/
  | confirmed (hc : confirmFlag s.cfg s.isr = true) : SeqCase s .sChk
      { s with
        p := 0b1110#4, k := 0#2, res := 0x10#5, hs := .sCol
        trace := s.trace ++ [.op .sequencer (.istat s.isr)] }
  /-- S_CHK with the flag down (R152). -/
  | early (hc : confirmFlag s.cfg s.isr ≠ true) : SeqCase s .sChk
      { s with
        hs := .sIdle, ret := true
        trace := s.trace ++ [.op .sequencer (.istat s.isr), .ret .early] }
  /-- S_COL (R153). -/
  | driven : SeqCase s .sCol
      { s with col := s.p, hs := .sRd, trace := s.trace ++ [.op .sequencer (.wrcol s.p)] }
  /-- S_RD that ends the sweep (R154). -/
  | ended (hl : hitFlag s.scanWord = true ∨ s.k = 3#2) :
      SeqCase s .sRd (s.scanned.goto .sOut)
  /-- S_RD that goes on (R154). -/
  | advanced (hl : ¬(hitFlag s.scanWord = true ∨ s.k = 3#2)) :
      SeqCase s .sRd ((opNextCol s.scanned).goto .sCol)
  /-- S_OUT (R155). -/
  | written : SeqCase s .sOut
      { s with
        out := outWord s.cfg s.res, outv := true, outWe := true, hs := .sClr
        trace := s.trace ++ [.op .sequencer (.wrout (outWord s.cfg s.res))] }
  /-- S_CLR (R156). -/
  | cleared : SeqCase s .sClr
      { s with
        isr := s.isr &&& ~~~chMask s.cfg, hs := .sEn
        trace := s.trace ++ [.op .sequencer (.iclr (chMask s.cfg))] }
  /-- S_EN (R157). -/
  | enabled : SeqCase s .sEn
      { s with
        ier := s.ier ||| chMask s.cfg, hs := .sIdle, ret := true
        trace := s.trace ++ [.op .sequencer (.ien (chMask s.cfg)), .ret .normal] }

/-- Every state has a step, and it is one of these. -/
theorem exists_seqCase (s : State) (h : HState) :
    ∃ t, exec (stateInstr h) s = .next t ∧ SeqCase s h t := by
  cases h with
  | sIdle =>
    cases hp : s.invokeI with
    | false => exact ⟨_, exec_sIdle_waits s hp, .waits hp⟩
    | true => exact ⟨_, exec_sIdle_pulsed s hp, .invoked hp⟩
  | sChk =>
    by_cases hc : confirmFlag s.cfg s.isr = true
    · exact ⟨_, exec_sChk_confirmed_eq s hc, .confirmed hc⟩
    · exact ⟨_, exec_sChk_early_eq s hc, .early hc⟩
  | sRd =>
    by_cases hl : hitFlag s.scanWord = true ∨ s.k = 3#2
    · exact ⟨_, exec_sRd_last_eq s hl, .ended hl⟩
    · exact ⟨_, exec_sRd_advance_eq s hl, .advanced hl⟩
  | sDis => exact ⟨_, exec_sDis_eq s, .disabled⟩
  | sCol => exact ⟨_, exec_sCol_eq s, .driven⟩
  | sOut => exact ⟨_, exec_sOut_eq s, .written⟩
  | sClr => exact ⟨_, exec_sClr_eq s, .cleared⟩
  | sEn => exact ⟨_, exec_sEn_eq s, .enabled⟩

theorem seqCase_of_exec {s t : State} {h : HState} (he : exec (stateInstr h) s = .next t) :
    SeqCase s h t := by
  obtain ⟨u, hu, hcase⟩ := exists_seqCase s h
  obtain rfl := Host.Outcome.next.inj (hu.symm.trans he)
  exact hcase

end Sys2Proof.Machine
end

section
/-! SUPPORT. A command word by its fields (R78), bit `CH` of the masks (R34, R84), and an INVOKE that
finds the block busy (R150). -/

namespace Sys2Proof

/-- A command word as its argument under the bits of its operation code (R78). -/
theorem CmdWord.mk_eq_or (op : BitVec 3) (arg : BitVec 8) :
    CmdWord.mk op arg = CmdWord.mk op 0#8 ||| arg.setWidth 11 := by
  apply BitVec.eq_of_getLsbD_eq
  intro i hi
  simp only [CmdWord.mk, BitVec.getLsbD_or, BitVec.getLsbD_append, BitVec.getLsbD_setWidth, hi]
  by_cases hlow : i < 8
  · simp [hlow]
  · simp [hlow, BitVec.getLsbD_of_ge arg i (by omega)]

end Sys2Proof

namespace Sys2Proof.Machine

/-- INVOKE while the sequencer runs is no event (R150). -/
theorem step_invoke_busy (s : State) (hr : s.rst = false) (hi : s.nextAct = .invoke)
    (hb : s.busy = true) : step s = .next s.takeAct := by
  refine step_of_settled _ _ ?_
  unfold nextTurn
  rw [hr, hi]
  exact if_pos hb

theorem busy_of_hs_ne (s : State) (h : s.hs ≠ .sIdle) : s.busy = true := by
  simp [State.busy, State.idle, h]

theorem idle_iff (s : State) : s.idle = true ↔ s.hs = .sIdle := beq_iff_eq

/-- `CH_MASK` has bit `CH` (R9, R84). -/
theorem getLsbD_chMask_ch (c : Config) (h : c.wf = true) : (chMask c).getLsbD c.ch = true := by
  obtain ⟨hch, hw⟩ := Config.wf_bounds c h
  simp [getLsbD_chMask c c.ch (by omega)]

/-- The confirmation flag of a well-formed configuration is bit `CH` (R34, R152). -/
theorem confirmFlag_eq_of_wf (c : Config) (t : Mask) (h : c.wf = true) :
    confirmFlag c t = t.getLsbD c.ch := by
  obtain ⟨hch, hw⟩ := Config.wf_bounds c h
  exact confirmFlag_eq c t (by omega)

end Sys2Proof.Machine
end

section
/-! PROOFS. The sequencer, state by state: the effect, what it leaves unchanged and the command word (R80,
R150 to R157). -/

namespace Sys2Proof.Machine

/-- Settles O19: S_IDLE by its two equations, the acts on the busy and on the idle block by theirs. -/
theorem sIdleWaitsForInvoke : Obligations.SIdleWaitsForInvoke := by
  refine ⟨exec_sIdle_waits, exec_sIdle_pulsed, fun s rest hr hs hi => ?busy,
    fun s w rest hr hs hi => ?host, fun s hs => ?word⟩
  case busy =>
    rw [step_invoke_busy s hr (s.nextAct_cons _ rest hi) (busy_of_hs_ne s hs),
      s.takeAct_cons _ rest hi]
  case host =>
    rw [step_hcmd s w hr ((idle_iff s).mpr hs) (s.nextAct_cons _ rest hi), s.takeAct_cons _ rest hi]
  case word => simp [sequencerWord, hs]

/-- Settles O20: IDIS of a mask with bit `CH` leaves that bit of `IER` down. -/
theorem sDisDisables : Obligations.SDisDisables := by
  intro s hwf
  have hie : (s.ier &&& ~~~chMask s.cfg).getLsbD s.cfg.ch = false :=
    getLsbD_and_not_of_getLsbD s.ier (getLsbD_chMask_ch s.cfg hwf)
  refine ⟨_, exec_sDis_eq s, hie, ?irq, rfl, fun hs => ?word⟩
  case irq => simp [State.irq, State.ie, hie]
  case word =>
    simp only [sequencerWord, hs, CmdWord.mk_eq_or 4#3 (chMask s.cfg)]
    rfl

/-- Settles O21: the confirmation flag is bit `CH` of `ISR`. -/
theorem sChkConfirmsOrReturnsEarly : Obligations.SChkConfirmsOrReturnsEarly := by
  intro s hwf
  have hflag := confirmFlag_eq_of_wf s.cfg s.isr hwf
  refine ⟨fun his => exec_sChk_confirmed_eq s (hflag.trans his),
    fun his => exec_sChk_early_eq s (by simp [hflag, his]), fun hs => ?_⟩
  simp only [sequencerWord, hs]
  rfl

/-- Settles O22: the row is WRCOL of `P`, and the word of operation code 0 is its argument. -/
theorem sColDrivesThePattern : Obligations.SColDrivesThePattern := by
  refine fun s => ⟨exec_sCol_eq s, fun hs => ?_⟩
  have hzero : CmdWord.mk 0#3 0#8 = 0#11 := rfl
  simp only [sequencerWord, hs, CmdWord.mk_eq_or 0#3 (s.p.setWidth 8), hzero, BitVec.zero_or]
  rw [BitVec.setWidth_setWidth (by decide)]

/-- Settles O23: the two branches of S_RD by the miss flag of the decoder's word and `K`. -/
theorem sRdReadsDecodesAndDecides : Obligations.SRdReadsDecodesAndDecides := by
  intro s d u
  have hflag : hitFlag s.scanWord = !d.getLsbD 4 := rfl
  refine ⟨fun hit => ?hit, fun _ hk => exec_sRd_last_eq s (.inr hk), fun hmiss hk => ?next,
    fun hs => ?word⟩
  case hit => exact exec_sRd_last_eq s (.inl (by rw [hflag, hit]; rfl))
  case next => exact exec_sRd_advance_eq s (by simp [hflag, hmiss, hk])
  case word =>
    simp only [sequencerWord, hs]
    rfl

/-- Settles O24: `outWord` is the rule's choice by the miss flag, for every parameter. -/
theorem sOutWritesTheResult : Obligations.SOutWritesTheResult := by
  intro s w
  have hw : outWord s.cfg s.res = w := by
    unfold outWord w
    cases s.res.getLsbD 4 <;> rfl
  refine ⟨hw ▸ exec_sOut_eq s, fun hm hres hno => ?default, fun hs => ?word⟩
  case default => rw [← hw, outWord, hm, hno, hres]; rfl
  case word =>
    simp only [sequencerWord, hs, hw, CmdWord.mk_eq_or 2#3 (w.setWidth 8)]
    rw [BitVec.setWidth_setWidth (by decide)]
    rfl

/-- Settles O25: ICLR of a mask with bit `CH` leaves that bit of `ISR` down. -/
theorem sClrClearsTheFlag : Obligations.SClrClearsTheFlag := by
  intro s hwf
  refine ⟨_, exec_sClr_eq s, ?_, rfl, fun hs => ?word⟩
  · exact getLsbD_and_not_of_getLsbD s.isr (getLsbD_chMask_ch s.cfg hwf)
  case word =>
    simp only [sequencerWord, hs, CmdWord.mk_eq_or 5#3 (chMask s.cfg)]
    rfl

/-- Settles O26: IEN of a mask with bit `CH` sets that bit of `IER`. -/
theorem sEnEnablesAndReturns : Obligations.SEnEnablesAndReturns := by
  intro s hwf
  have hie : (s.ier ||| chMask s.cfg).getLsbD s.cfg.ch = true := by
    rw [BitVec.getLsbD_or, getLsbD_chMask_ch s.cfg hwf, Bool.or_true]
  refine ⟨_, exec_sEn_eq s, ?armed, ?irq, rfl, fun hs => ?word⟩
  case armed => simp [State.armed, State.idle, State.ie, hie]
  case irq => simp [State.irq, State.ie, State.is, hie]
  case word =>
    simp only [sequencerWord, hs, CmdWord.mk_eq_or 6#3 (chMask s.cfg)]
    rfl

end Sys2Proof.Machine
end

section
/-! SUPPORT. The width of the masks (R24, R25, R80), the parts of the invariant as propositions, and the
frame of the acts that are no step of the sequencer. -/

namespace Sys2Proof.Machine

/-- `m` has no bit from `MASK_W` up (R84). -/
def InWidth (c : Config) (m : Mask) : Prop := maskArg c m = m

section Width

variable {c : Config} {x y : Mask}

theorem InWidth.and (hx : InWidth c x) (y : Mask) : InWidth c (x &&& y) := by
  rw [InWidth, maskArg, BitVec.and_assoc, BitVec.and_comm y, ← BitVec.and_assoc]
  exact congrArg (· &&& y) hx

theorem InWidth.or (hx : InWidth c x) (hy : InWidth c y) : InWidth c (x ||| y) := by
  rw [InWidth, maskArg, BitVec.and_or_distrib_right]
  exact congrArg₂ (· ||| ·) hx hy

theorem inWidth_maskArg (c : Config) (x : Mask) : InWidth c (maskArg c x) := by
  rw [InWidth, maskArg, maskArg, BitVec.and_assoc, BitVec.and_self]

theorem inWidth_chMask (h : c.wf = true) : InWidth c (chMask c) := maskArg_chMask c h

theorem inWidth_zero (c : Config) : InWidth c 0#8 := BitVec.zero_and

/-- The model says "no bit above" by the complement, `maskArg` by the mask. -/
theorem and_not_eq_zero_iff (x m : Mask) : x &&& ~~~m = 0#8 ↔ x &&& m = x := by
  constructor <;> intro h <;> refine BitVec.eq_of_getLsbD_eq fun i hi => ?_
  · have hbit : (x &&& ~~~m).getLsbD i = false := by rw [h, BitVec.getLsbD_zero]
    simpa [hi] using hbit
  · have hbit : (x &&& m).getLsbD i = x.getLsbD i := by rw [h]
    simpa [hi] using hbit

end Width

section InvariantParts

variable {s : State}

theorem masksInWidth_iff :
    s.masksInWidth = true ↔ InWidth s.cfg s.ier ∧ InWidth s.cfg s.isr := by
  simp [State.masksInWidth, InWidth, maskArg, and_not_eq_zero_iff]

theorem sweepLegal_sCol (h : s.hs = .sCol) :
    s.sweepLegal = true ↔ s.p = rotl4Iter s.k.toNat 0b1110#4 ∧ s.res = 0x10#5 := by
  simp [State.sweepLegal, h]

theorem sweepLegal_sRd (h : s.hs = .sRd) :
    s.sweepLegal = true ↔
      s.p = rotl4Iter s.k.toNat 0b1110#4 ∧ s.res = 0x10#5 ∧ s.col = s.p := by
  simp [State.sweepLegal, h, and_assoc]

theorem sweepLegal_sOut (h : s.hs = .sOut) :
    s.sweepLegal = true ↔
      s.p = rotl4Iter s.k.toNat 0b1110#4 ∧ s.col = s.p ∧ (hitFlag s.res = true ∨ s.k = 3#2) := by
  simp [State.sweepLegal, h, and_assoc]

/-- In S_CLR what S_OUT was asked still holds, and the latch holds the result (R155). -/
theorem sweepLegal_sClr (h : s.hs = .sClr) :
    s.sweepLegal = true ↔
      (s.p = rotl4Iter s.k.toNat 0b1110#4 ∧ s.col = s.p ∧ (hitFlag s.res = true ∨ s.k = 3#2))
        ∧ s.outv = true ∧ s.out = outWord s.cfg s.res := by
  simp [State.sweepLegal, h, and_assoc]

/-- The value of a miss is legal in `RES` (R29). -/
theorem miss_legal : (hitFlag 0x10#5 || (0x10#5 : DecodeResult) == 0x10#5) = true := by decide

/-- The decoder gives a code or `0x10` (R29, R76). -/
theorem romRead_legal (a : RomAddr) : (hitFlag (romRead a) || romRead a == 0x10#5) = true := by
  cases hm : (romRead a).getLsbD 4 with
  | false =>
    rw [hitFlag, hm]
    rfl
  | true =>
    rw [(romRead_getLsbD_iff a).mp hm]
    exact miss_legal

end InvariantParts

/-- The word of a miss is `0x10` (R76). -/
theorem scanWord_of_miss (s : State) (h : ¬hitFlag s.scanWord = true) : s.scanWord = 0x10#5 :=
  (romRead_getLsbD_iff _).mp (Bool.not_inj (Bool.eq_false_iff.mpr h))

/-- `K + 1` before the last column is no wrap (R27). -/
theorem toNat_succ_of_ne_three : ∀ k : BitVec 2, k ≠ 3#2 → (k + 1#2).toNat = k.toNat + 1 := by
  decide

/-- A sample of the sink pins changes the counter of free values and the trace alone (R193). -/
theorem envRdout_eq (s : State) :
    envRdout s
      = { s with free := (envRdout s).free, trace := s.trace ++ [.hRdout (outRead s)] } := by
  unfold envRdout
  split <;> rfl

/-- What a command leaves unchanged whoever issues it, and the one event it records (R100 to R106). -/
structure CommandFrame (s t : State) : Prop where
  hs : t.hs = s.hs
  res : t.res = s.res
  trace : ∃ o, t.trace = s.trace ++ [.op s.issuer o]
  masksInWidth : s.masksInWidth = true → t.masksInWidth = true

theorem commandFrame_of_exec {s t : State} {w : CmdWord} (he : exec (decodeCmd w) s = .next t) :
    CommandFrame s t := by
  revert he
  refine decodeCmd_elim (motive := fun i => exec i s = .next t → CommandFrame s t)
    ?wrcol ?rdcmb ?wrout ?istat ?idis ?iclr ?ien ?reservedOp7 w
  case reservedOp7 => nofun
  case rdcmb =>
    rintro ⟨⟩
    rw [opRdcmb_eq]
    exact ⟨rfl, rfl, ⟨_, rfl⟩, id⟩
  case istat =>
    rintro ⟨⟩
    rw [opIstat_eq]
    exact ⟨rfl, rfl, ⟨_, rfl⟩, id⟩
  case wrcol | wrout =>
    rintro - ⟨⟩
    exact ⟨rfl, rfl, ⟨_, rfl⟩, id⟩
  case idis =>
    rintro a ⟨⟩
    exact ⟨rfl, rfl, ⟨_, rfl⟩, fun h =>
      masksInWidth_iff.mpr ((masksInWidth_iff.mp h).imp_left (·.and _))⟩
  case iclr =>
    rintro a ⟨⟩
    exact ⟨rfl, rfl, ⟨_, rfl⟩, fun h =>
      masksInWidth_iff.mpr ((masksInWidth_iff.mp h).imp_right (·.and _))⟩
  case ien =>
    rintro a ⟨⟩
    exact ⟨rfl, rfl, ⟨_, rfl⟩, fun h =>
      masksInWidth_iff.mpr ((masksInWidth_iff.mp h).imp_left (·.or (inWidth_maskArg _ _)))⟩

end Sys2Proof.Machine
end

section
/-! PROOFS. The invariant is kept by every step (R24, R25, R28, R29, R131, R161): each part by the sequencer's
steps, then the whole by any act. -/

namespace Sys2Proof.Machine

section SequencerKeeps

variable {s t : State} {h : HState}

/-- The sequencer's masks are `CH_MASK` (R151, R156, R157). -/
theorem SeqCase.masksInWidth (hcase : SeqCase s h t) (hwf : s.cfg.wf = true)
    (hm : s.masksInWidth = true) : t.masksInWidth = true := by
  obtain ⟨hier, hisr⟩ := masksInWidth_iff.mp hm
  cases hcase with
  | disabled => exact masksInWidth_iff.mpr ⟨hier.and _, hisr⟩
  | cleared => exact masksInWidth_iff.mpr ⟨hier, hisr.and _⟩
  | enabled => exact masksInWidth_iff.mpr ⟨hier.or (inWidth_chMask hwf), hisr⟩
  | waits | invoked | confirmed | early | driven | ended | advanced | written => exact hm

/-- S_DIS takes `IE` down, and no step before S_EN sets it (R161). -/
theorem SeqCase.disabledMidService (hcase : SeqCase s h t) (hs : s.hs = h)
    (hwf : s.cfg.wf = true) (hd : s.disabledMidService = true) : t.disabledMidService = true := by
  cases hcase with
  | waits => exact hd
  | invoked | early | enabled => rfl
  | disabled =>
    exact congrArg not (getLsbD_and_not_of_getLsbD s.ier (getLsbD_chMask_ch s.cfg hwf))
  | confirmed | driven | ended | advanced | written | cleared =>
    rw [State.disabledMidService, hs] at hd
    exact hd

/-- `RES` is written by COLINIT and from the decoder alone (R29). -/
theorem SeqCase.resLegal (hcase : SeqCase s h t) (hr : s.resLegal = true) : t.resLegal = true := by
  cases hcase with
  | confirmed => exact miss_legal
  | ended | advanced => exact romRead_legal _
  | waits | invoked | disabled | early | driven | written | cleared | enabled => exact hr

/-- The sweep's registers from COLINIT to the return (R28, R131). -/
theorem SeqCase.sweepLegal (hcase : SeqCase s h t) (hs : s.hs = h) (hsw : s.sweepLegal = true) :
    t.sweepLegal = true := by
  cases hcase with
  | waits => exact hsw
  | invoked | disabled | early | confirmed | enabled => rfl
  | driven =>
    obtain ⟨hp, hres⟩ := (sweepLegal_sCol hs).mp hsw
    exact (sweepLegal_sRd rfl).mpr ⟨hp, hres, rfl⟩
  | ended hl =>
    obtain ⟨hp, -, hcol⟩ := (sweepLegal_sRd hs).mp hsw
    exact (sweepLegal_sOut rfl).mpr ⟨hp, hcol, hl⟩
  | advanced hl =>
    obtain ⟨hp, -, -⟩ := (sweepLegal_sRd hs).mp hsw
    obtain ⟨hmiss, hk⟩ := not_or.mp hl
    refine (sweepLegal_sCol rfl).mpr ⟨?_, scanWord_of_miss s hmiss⟩
    change rotl4 s.p = rotl4Iter (s.k + 1#2).toNat 0b1110#4
    rw [toNat_succ_of_ne_three s.k hk, hp]
    rfl
  | written =>
    have hswept := (sweepLegal_sOut hs).mp hsw
    exact (sweepLegal_sClr rfl).mpr ⟨hswept, rfl, rfl⟩
  | cleared =>
    rw [State.sweepLegal, hs] at hsw
    exact hsw

theorem SeqCase.inv (hcase : SeqCase s h t) (hs : s.hs = h) (hinv : s.Inv) (hcfg : t.cfg = s.cfg) :
    t.Inv := by
  obtain ⟨hwf, hm, hd, hr, hsw⟩ := hinv
  exact ⟨hcfg ▸ hwf, hcase.masksInWidth hwf hm, hcase.disabledMidService hs hwf hd,
    hcase.resLegal hr, hcase.sweepLegal hs hsw⟩

end SequencerKeeps

/-- While the block is idle the invariant asks nothing of `IE` and of the sweep. -/
theorem inv_of_hs_sIdle {s : State} (hs : s.hs = .sIdle) (hwf : s.cfg.wf = true)
    (hm : s.masksInWidth = true) (hr : s.resLegal = true) : s.Inv :=
  ⟨hwf, hm, by rw [State.disabledMidService, hs], hr, by rw [State.sweepLegal, hs]⟩

/-- Settles O41: by the cases of a step; the sequencer's is `SeqCase.inv`, a command finds and leaves the
block idle, an edge sets bits below `MASK_W`, and the other acts write nothing the invariant reads. -/
theorem stepKeepsInvariant : Obligations.StepKeepsInvariant := by
  intro s t hinv hstep
  have hcfg := configIsNeverWritten s t hstep
  obtain ⟨hwf, hm, hd, hr, hsw⟩ := hinv
  cases step_case s t hstep with
  | seq _ _ _ he => exact (seqCase_of_exec he).inv rfl ⟨hwf, hm, hd, hr, hsw⟩ hcfg
  | host w _ _ _ hb he =>
    have hframe := commandFrame_of_exec he
    refine inv_of_hs_sIdle (hframe.hs.trans ((idle_iff s).mp hb)) (hcfg ▸ hwf)
      (hframe.masksInWidth hm) ?_
    rw [State.resLegal, hframe.res]
    exact hr
  | rom a _ _ he =>
    rw [exec_decodeRom] at he
    cases he
    exact ⟨hwf, hm, hd, hr, hsw⟩
  | edge m =>
    obtain ⟨hier, hisr⟩ := masksInWidth_iff.mp hm
    obtain ⟨-, h⟩ | ⟨-, h⟩ := envEdge_cases s.takeAct m <;> rw [h]
    · exact ⟨hwf, hm, hd, hr, hsw⟩
    · exact ⟨hwf, masksInWidth_iff.mpr ⟨hier, hisr.or (inWidth_maskArg _ m)⟩, hd, hr, hsw⟩
  | invoke => exact ⟨hwf, hm, rfl, hr, rfl⟩
  | hRdout =>
    rw [envRdout_eq]
    exact ⟨hwf, hm, hd, hr, hsw⟩
  | rstHigh =>
    exact inv_of_hs_sIdle rfl hwf (masksInWidth_iff.mpr ⟨inWidth_zero _, inWidth_zero _⟩)
      miss_legal
  | still | invokeBusy | rstLow | keyDown | keyUp => exact ⟨hwf, hm, hd, hr, hsw⟩

end Sys2Proof.Machine
end

section
/-! PROOFS. The trace stays within the protocol and stands where the sequencer stands (R159, R162, R163,
R211, R213). -/

namespace Sys2Proof.Machine

/-- A trace with one more event stands where the event takes it. -/
theorem tracePhase_concat (c : Config) (es : List Event) (e : Event) :
    tracePhase c (es ++ [e]) = (tracePhase c es).bind (nextPhase c · e) := by
  rw [tracePhase, List.foldl_append]
  rfl

section OneStep

variable {s t : State} {h : HState}

/-- Where the protocol stands, for a known state of the sequencer. -/
theorem phase_of_hs (hs : s.hs = h) : s.phase = { s with hs := h }.phase := hs ▸ rfl

theorem traceLegal_event {e : Event} (hs : s.TraceLegal) (hcfg : t.cfg = s.cfg)
    (htrace : t.trace = s.trace ++ [e]) (hnext : nextPhase s.cfg s.phase e = some t.phase) :
    t.TraceLegal := by
  rw [State.TraceLegal, hcfg, htrace, tracePhase_concat, hs]
  exact hnext

/-- The two exits record an operation and the RETURN after it. -/
theorem traceLegal_two_events {e e' : Event} (ph : Phase) (hs : s.TraceLegal)
    (hcfg : t.cfg = s.cfg) (htrace : t.trace = s.trace ++ [e, e'])
    (hfirst : nextPhase s.cfg s.phase e = some ph)
    (hsecond : nextPhase s.cfg ph e' = some t.phase) : t.TraceLegal := by
  rw [List.append_cons] at htrace
  rw [State.TraceLegal, hcfg, htrace, tracePhase_concat, tracePhase_concat, hs]
  rw [Option.bind_some, hfirst]
  exact hsecond

/-- In S_RD the word read has the pattern of the column in its low half, so the protocol decodes what the
sequencer does (R154, R163). -/
theorem sequencerPhase_rdcmb (hp : s.p = rotl4Iter s.k.toNat 0b1110#4) (hcol : s.col = s.p) :
    sequencerPhase s.cfg (.rdcmb (combinedWord s)) (.read s.k)
      = some (if hitFlag s.scanWord = true ∨ s.k = 3#2 then .output s.scanWord
          else .drive (s.k + 1#2)) := by
  have hword : romRead (romAddr (rowSample s) s.p) = s.scanWord := rfl
  simp only [sequencerPhase, rowSel_combinedWord, combinedWord_cols, hcol, ← hp, hword, if_true]
  by_cases hit : hitFlag s.scanWord = true <;> simp [hit]

/-- Each step of the sequencer records the operation that the protocol has next, with its argument. -/
theorem SeqCase.traceLegal (hcase : SeqCase s h t) (hs : s.hs = h) (hsw : s.sweepLegal = true)
    (ht : s.TraceLegal) : t.TraceLegal := by
  have hphase := phase_of_hs hs
  cases hcase with
  | waits => exact ht
  | invoked =>
    refine traceLegal_event ht rfl rfl ?_
    rw [hphase]
    rfl
  | disabled | written | cleared =>
    refine traceLegal_event ht rfl rfl ?_
    rw [hphase]
    exact if_pos rfl
  | confirmed hc =>
    refine traceLegal_event ht rfl rfl ?_
    rw [hphase]
    exact congrArg some (if_pos hc)
  | early hc =>
    refine traceLegal_two_events .leaveEarly ht rfl rfl ?_ rfl
    rw [hphase]
    exact congrArg some (if_neg hc)
  | driven =>
    obtain ⟨hp, -⟩ := (sweepLegal_sCol hs).mp hsw
    refine traceLegal_event ht rfl rfl ?_
    rw [hphase]
    exact if_pos hp
  | ended hl =>
    obtain ⟨hp, -, hcol⟩ := (sweepLegal_sRd hs).mp hsw
    refine traceLegal_event ht rfl rfl ?_
    rw [hphase]
    exact (sequencerPhase_rdcmb hp hcol).trans (congrArg some (if_pos hl))
  | advanced hl =>
    obtain ⟨hp, -, hcol⟩ := (sweepLegal_sRd hs).mp hsw
    refine traceLegal_event ht rfl rfl ?_
    rw [hphase]
    exact (sequencerPhase_rdcmb hp hcol).trans (congrArg some (if_neg hl))
  | enabled =>
    refine traceLegal_two_events .leaveNormal ht rfl rfl ?_ rfl
    rw [hphase]
    exact if_pos rfl

end OneStep

/-- Settles O42: by the cases of a step; the sequencer's is `SeqCase.traceLegal`, a command and INVOKE find
the block idle, the environment's events stand anywhere, and RESET starts the trace again. -/
theorem stepKeepsTraceProtocol : Obligations.StepKeepsTraceProtocol := by
  intro s t hinv ht hstep
  obtain ⟨-, -, -, -, hsw⟩ := hinv
  have hcfg := configIsNeverWritten s t hstep
  cases step_case s t hstep with
  | seq _ _ _ he => exact (seqCase_of_exec he).traceLegal (s := s.takeAct) rfl hsw ht
  | host w _ _ _ hb he =>
    have hframe := commandFrame_of_exec he
    obtain ⟨o, htrace⟩ := hframe.trace
    have hown : s.takeAct.issuer = .host := (issuer_eq_host s.takeAct).mpr hb
    refine traceLegal_event ht hcfg htrace ?_
    rw [hown, phase_of_hs ((idle_iff s).mp hb),
      phase_of_hs (hframe.hs.trans ((idle_iff s).mp hb))]
    rfl
  | rom a _ _ he =>
    rw [exec_decodeRom] at he
    cases he
    exact ht
  | edge m =>
    obtain ⟨-, h⟩ | ⟨-, h⟩ := envEdge_cases s.takeAct m <;> rw [h]
    · exact ht
    · exact traceLegal_event ht rfl rfl rfl
  | invoke _ _ he =>
    refine traceLegal_event ht rfl rfl ?_
    rw [phase_of_hs ((idle_iff s).mp (idle_of_invokeEnabled s he))]
    rfl
  | hRdout =>
    rw [envRdout_eq]
    exact traceLegal_event ht rfl rfl rfl
  | rstHigh => rfl
  | keyDown | keyUp => exact traceLegal_event ht rfl rfl rfl
  | still | invokeBusy | rstLow => exact ht

end Sys2Proof.Machine
end

section
/-! PROOFS. `GATED` (R160, R167, R181): an invocation begins with its flag up and keeps it to S_CHK, and none
begins from the dead state. -/

namespace Sys2Proof.Machine

section Gated

variable {s t : State} {h : HState}

/-- Under `GATED` an INVOKE is enabled by the request (R181). -/
theorem irq_of_invokeEnabled (hpol : s.cfg.invokePolicy = .gated) (he : s.invokeEnabled = true) :
    s.irq = true := by
  rw [State.invokeEnabled, hpol] at he
  exact (Bool.and_eq_true_iff.mp he).2

/-- In the other states GATED's guarantee asks nothing. -/
theorem gatedPending_of_hs (hdis : s.hs ≠ .sDis) (hchk : s.hs ≠ .sChk) : s.GatedPending :=
  fun _ h => (h.elim hdis hchk).elim

theorem gatedPending_of_idle (hs : s.hs = .sIdle) : s.GatedPending :=
  gatedPending_of_hs (by simp [hs]) (by simp [hs])

/-- The sequencer enters S_CHK from S_DIS alone, which leaves `ISR` as it is (R151). -/
theorem SeqCase.gatedPending (hcase : SeqCase s h t) (hs : s.hs = h) (hp : s.invokeI = false)
    (hg : s.GatedPending) : t.GatedPending := by
  cases hcase with
  | waits => exact hg
  | invoked hp' => exact absurd (hp.symm.trans hp') Bool.false_ne_true
  | disabled => exact fun hpol _ => hg hpol (.inl hs)
  | confirmed | early | driven | ended | advanced | written | cleared | enabled =>
    exact gatedPending_of_hs nofun nofun

/-- Settles O43: INVOKE needs the request, an edge sets bits only, and only the sequencer, which is past
S_CHK then, and an idle block's host clear them; S_CHK confirms by bit `CH`. -/
theorem stepKeepsGatedPending : Obligations.StepKeepsGatedPending := by
  refine ⟨fun s t _ hg hstep => ?kept, fun s t hwf hpol hs hg he => ?confirms⟩
  case kept =>
    cases step_case s t hstep with
    | seq _ _ _ he => exact (seqCase_of_exec he).gatedPending (s := s.takeAct) rfl rfl hg
    | host w _ _ _ hb he =>
      exact gatedPending_of_idle ((commandFrame_of_exec he).hs.trans ((idle_iff s).mp hb))
    | rom a _ _ he =>
      rw [exec_decodeRom] at he
      cases he
      exact hg
    | edge m =>
      obtain ⟨-, h⟩ | ⟨-, h⟩ := envEdge_cases s.takeAct m <;> rw [h]
      · exact hg
      · intro hpol hs
        have his : s.isr.getLsbD s.cfg.ch = true := hg hpol hs
        change (s.isr ||| maskArg s.cfg m).getLsbD s.cfg.ch = true
        rw [BitVec.getLsbD_or, his, Bool.true_or]
    | invoke _ _ he =>
      exact fun hpol _ => (Bool.and_eq_true_iff.mp (irq_of_invokeEnabled (s := s) hpol he)).2
    | hRdout =>
      rw [envRdout_eq]
      exact hg
    | rstHigh => exact gatedPending_of_idle rfl
    | still | invokeBusy | rstLow | keyDown | keyUp => exact hg
  case confirms =>
    have hflag : confirmFlag s.cfg s.isr = true :=
      (confirmFlag_eq_of_wf s.cfg s.isr hwf).trans (hg hpol (.inr hs))
    rw [exec_sChk_confirmed_eq s hflag] at he
    cases he
    rfl

theorem irq_of_dead (hd : s.dead = true) : s.irq = false := by
  have hie : s.ie = false := by simpa using (Bool.and_eq_true_iff.mp hd).2
  rw [State.irq, hie, Bool.false_and]

/-- Every act but the sequencer's is a listed one (R198, log 2). -/
theorem inputs_of_nextAct {i : Input} (hi : s.nextAct = i) (hne : i ≠ .seq) :
    s.inputs = i :: s.inputs.tail := by
  cases hl : s.inputs with
  | nil => exact absurd (hi.symm.trans (s.nextAct_nil hl)) hne
  | cons j rest => rw [← hi, s.nextAct_cons j rest hl, List.tail_cons]

/-- Settles O48: with the request low no INVOKE is enabled, the sequencer waits, and of the other acts only
the host's and reset write `IER` or `HS` of an idle block. -/
theorem deadStateIsStuckUnderGated : Obligations.DeadStateIsStuckUnderGated := by
  intro s hpol hd
  have hirq := irq_of_dead hd
  refine ⟨hirq, fun t hhost hrst hstep => ?_⟩
  have hs : s.hs = .sIdle := (idle_iff s).mp (Bool.and_eq_true_iff.mp hd).1
  cases step_case s t hstep with
  | seq _ _ _ he =>
    have hcase := seqCase_of_exec he
    rw [hs] at hcase
    cases hcase with
    | waits => exact hd
    | invoked hp => cases hp
  | invoke _ _ he =>
    exact absurd (hirq.symm.trans (irq_of_invokeEnabled hpol he)) Bool.false_ne_true
  | host w _ _ hi => exact absurd (inputs_of_nextAct hi nofun) (hhost w _)
  | rstHigh hi => exact absurd (inputs_of_nextAct hi nofun) (hrst true _)
  | rstLow hi => exact absurd (inputs_of_nextAct hi nofun) (hrst false _)
  | rom a _ _ he =>
    rw [exec_decodeRom] at he
    cases he
    exact hd
  | edge m =>
    obtain ⟨-, h⟩ | ⟨-, h⟩ := envEdge_cases s.takeAct m <;> rw [h] <;> exact hd
  | hRdout =>
    rw [envRdout_eq]
    exact hd
  | still | invokeBusy | keyDown | keyUp => exact hd

end Gated

end Sys2Proof.Machine
end

section
/-! PROOFS. An invocation completes (R133, R164): a bound on the steps left that every step of the sequencer
brings down. -/

namespace Sys2Proof.Machine

/-- Two runs one after the other, the first of which ends in a known state. -/
theorem State.Reaches.followed {s t : State} {n m : Nat} {Q : State → Prop}
    (h : s.Reaches n (· = t)) (k : t.Reaches m Q) : s.Reaches (n + m) Q :=
  h.trans fun _ hu => hu ▸ k

/-- How many steps of the sequencer an invocation takes at most from `s` on (R164): two for each column
from `K` to 3, and those before and after the sweep. -/
def State.stepsLeft (s : State) : Nat :=
  match s.hs with
  | .sIdle => 0
  | .sDis => 13
  | .sChk => 12
  | .sCol => 5 + 2 * (3 - s.k.toNat)
  | .sRd => 4 + 2 * (3 - s.k.toNat)
  | .sOut => 3
  | .sClr => 2
  | .sEn => 1

theorem stepsLeft_le (s : State) : s.stepsLeft ≤ 13 := by
  unfold State.stepsLeft
  split <;> omega

section Progress

variable {s t : State} {h : HState}

/-- The sequencer touches neither `rst` nor the acts of the other agents. -/
theorem SeqCase.alone (hcase : SeqCase s h t) : t.rst = s.rst ∧ t.inputs = s.inputs := by
  cases hcase <;> exact ⟨rfl, rfl⟩

theorem SeqCase.stepsLeft_lt (hcase : SeqCase s h t) (hs : s.hs = h) (hbusy : h ≠ .sIdle) :
    t.stepsLeft < s.stepsLeft := by
  have hleft : s.stepsLeft = { s with hs := h }.stepsLeft := hs ▸ rfl
  rw [hleft]
  cases hcase with
  | waits | invoked => exact absurd rfl hbusy
  | advanced hl =>
    have hk : s.k ≠ 3#2 := (not_or.mp hl).2
    have hsucc := toNat_succ_of_ne_three s.k hk
    change 5 + 2 * (3 - (s.k + 1#2).toNat) < 4 + 2 * (3 - s.k.toNat)
    omega
  | driven =>
    change 4 + 2 * (3 - s.k.toNat) < 5 + 2 * (3 - s.k.toNat)
    omega
  | ended =>
    change 3 < 4 + 2 * (3 - s.k.toNat)
    omega
  | disabled | confirmed | early | written | cleared | enabled =>
    simp [State.stepsLeft]

/-- With no act of another agent the sequencer is idle again when its steps are used up. -/
theorem reaches_idle (n : Nat) (hr : s.rst = false) (hi : s.inputs = []) (hn : s.stepsLeft ≤ n) :
    ∃ m ≤ n, s.Reaches m (·.hs = .sIdle) := by
  induction n generalizing s with
  | zero =>
    refine ⟨0, le_rfl, .refl ?_⟩
    by_contra hbusy
    obtain ⟨t, -, hcase⟩ := exists_seqCase s s.hs
    exact absurd (hcase.stepsLeft_lt rfl hbusy) (by omega)
  | succ n ih =>
    by_cases hs : s.hs = .sIdle
    · exact ⟨0, by omega, .refl hs⟩
    · obtain ⟨t, he, hcase⟩ := exists_seqCase s.settlePins s.hs
      obtain ⟨hrst, hinputs⟩ := hcase.alone
      have hlt : t.stepsLeft < s.stepsLeft := hcase.stepsLeft_lt rfl hs
      obtain ⟨m, hm, hreach⟩ := ih (hrst.trans hr) (hinputs.trans hi) (by omega)
      refine ⟨1 + m, by omega, ?_⟩
      have first : s.Reaches 1 (· = t) := .seq hr hi he rfl
      exact first.followed hreach

end Progress

/-- Settles O53: the bound is 13 at most. -/
theorem handlerRunsToCompletion : Obligations.HandlerRunsToCompletion := by
  intro s _ hr _ hi
  obtain ⟨n, hn, t, hrun, hidle⟩ := reaches_idle 13 hr hi (stepsLeft_le s)
  exact ⟨n, t, hn, hrun, hidle⟩

end Sys2Proof.Machine
end

section
/-! PROOFS. A spurious invocation (R152, R160, R162): INVOKE, S_DIS, S_CHK and the early exit. -/

namespace Sys2Proof.Machine

/-- An enabled INVOKE takes the interrupt (R150, R181). -/
theorem step_invoke_taken (s : State) (hr : s.rst = false) (hi : s.nextAct = .invoke)
    (he : s.invokeEnabled = true) : step s = .next (takeInvoke s.takeAct) := by
  rw [step_invoke s hr hi he, exec_sIdle_pulsed _ rfl]
  rfl

/-- Settles O56: the three steps one after another; the flag is down, so S_CHK leaves early. -/
theorem spuriousInvocationLeavesOnlyDisable : Obligations.SpuriousInvocationLeavesOnlyDisable := by
  intro s hwf hpol hr hs his hi
  have henabled : s.invokeEnabled = true := by
    simp [State.invokeEnabled, (idle_iff s).mpr hs, hpol]
  have hflag : confirmFlag s.cfg s.isr ≠ true := by
    rw [confirmFlag_eq_of_wf s.cfg s.isr hwf]
    exact Bool.eq_false_iff.mp his
  have hie : (s.ier &&& ~~~chMask s.cfg).getLsbD s.cfg.ch = false :=
    getLsbD_and_not_of_getLsbD s.ier (getLsbD_chMask_ch s.cfg hwf)
  let u : State := { s.settlePins with inputs := [] }
  have invoked : s.Reaches 1 (· = takeInvoke u) := by
    refine ⟨_, run_next s 0 _ (step_invoke_taken s hr (s.nextAct_cons _ _ hi) henabled), ?_⟩
    rw [s.takeAct_cons _ _ hi]
  have disabled : (takeInvoke u).Reaches 1
      (· = (opIdis .sequencer (chMask s.cfg) (takeInvoke u)).goto .sChk) := .seq hr rfl rfl rfl
  refine (invoked.followed disabled).followed (m := 1)
    (.seq hr rfl (exec_sChk_early_eq _ hflag) ⟨?dead, ?state⟩)
  case dead => exact congrArg not hie
  case state => simp [u, opIdis_eq, takeInvoke_eq, hs]

end Sys2Proof.Machine
end

section
/-! PROOFS. The sequencer's steps from S_DIS add up to HANDLER (R129, R158, R164): each piece of the composite
with the state code that the sequencer holds there. -/

namespace Sys2Proof.Machine

/-- The parameters of `s` are `c`, no other agent acts from `s` on, and no pin pulses. -/
def State.RunsAlone (c : Config) (s : State) : Prop :=
  s.cfg = c ∧ s.rst = false ∧ s.inputs = []
    ∧ s.outWe = false ∧ s.ret = false ∧ s.hrdata = none ∧ s.invokeI = false

section Pieces

variable {c : Config} {s t : State}

theorem State.RunsAlone.settlePins_eq (h : s.RunsAlone c) : s.settlePins = s := by
  obtain ⟨-, -, -, hwe, hret, hdata, hpulse⟩ := h
  cases s
  simp_all [State.settlePins]

theorem State.RunsAlone.scanStep (h : s.RunsAlone c) : (scanStep s).RunsAlone c := by
  rw [scanStep_eq]
  exact h

theorem State.RunsAlone.reaches (h : s.RunsAlone c) (he : exec (stateInstr s.hs) s = .next t) :
    s.Reaches 1 (· = t) := by
  obtain ⟨-, hr, hi, -⟩ := id h
  exact .seq hr hi (h.settlePins_eq ▸ he) rfl

/-- A row sample does not depend on the state of the sequencer (R183, R184). -/
theorem consumeRow_goto (s : State) (h : HState) :
    consumeRow (s.goto h) = (consumeRow s).goto h := by
  cases he : s.cfg.rowsEnv with
  | keypad => rw [consumeRow_keypad s he, consumeRow_keypad (s.goto h) he]
  | free =>
    cases hl : s.rows with
    | nil =>
      rw [consumeRow_free_nil s he hl, consumeRow_free_nil (s.goto h) he hl]
      rfl
    | cons r rs =>
      rw [consumeRow_free_cons s r rs he hl, consumeRow_free_cons (s.goto h) r rs he hl]
      rfl

theorem opScanRead_goto (s : State) (h : HState) :
    opScanRead (s.goto h) = (opScanRead s).goto h := by
  rw [opScanRead_eq, opScanRead_eq, consumeRow_goto]
  rfl

/-- S_COL is the write of SCANSTEP (R127, R153). -/
theorem reaches_driven (h : s.RunsAlone c) :
    (s.goto .sCol).Reaches 1 (· = (opWrcol .sequencer s.p s).goto .sRd) :=
  State.RunsAlone.reaches (s := s.goto .sCol) h rfl

/-- S_COL and S_RD at the end of the sweep (R127, R154). -/
theorem reaches_scanStep_last (h : s.RunsAlone c)
    (hl : hitFlag (scanStep s).res = true ∨ (scanStep s).k = 3#2) :
    (s.goto .sCol).Reaches 2 (· = (scanStep s).goto .sOut) := by
  have he := exec_sRd_last ((opWrcol .sequencer s.p s).goto .sRd)
  rw [opScanRead_goto] at he
  rw [scanStep, opScanRead_k] at hl
  exact (reaches_driven h).followed (m := 1)
    (State.RunsAlone.reaches (s := (opWrcol .sequencer s.p s).goto .sRd) h (he hl))

/-- S_COL and S_RD that go on to the next column (R129, R154). -/
theorem reaches_scanStep_advance (h : s.RunsAlone c)
    (hl : ¬(hitFlag (scanStep s).res = true ∨ (scanStep s).k = 3#2)) :
    (s.goto .sCol).Reaches 2 (· = (opNextCol (scanStep s)).goto .sCol) := by
  have he := exec_sRd_advance ((opWrcol .sequencer s.p s).goto .sRd)
  rw [opScanRead_goto] at he
  rw [scanStep, opScanRead_k] at hl
  exact (reaches_driven h).followed (m := 1)
    (State.RunsAlone.reaches (s := (opWrcol .sequencer s.p s).goto .sRd) h (he hl))

@[simp] theorem scanStep_k (s : State) : (scanStep s).k = s.k := by
  rw [scanStep_eq]
  rfl

/-- The loop of SCAN with `n` columns left takes two steps for each that it tries (R129, R133). -/
theorem reaches_scanLoop (n : Nat) (h : s.RunsAlone c) (hk : s.k.toNat + n = 4) :
    (scanLoop n s).RunsAlone c ∧
      ∃ m, 1 ≤ m ∧ m ≤ n ∧ (s.goto .sCol).Reaches (2 * m) (· = (scanLoop n s).goto .sOut) := by
  induction n generalizing s with
  | zero => omega
  | succ n ih =>
    by_cases hl : hitFlag (scanStep s).res = true ∨ (scanStep s).k = 3#2
    · rw [scanLoop_last hl]
      exact ⟨h.scanStep, 1, le_rfl, by omega, reaches_scanStep_last h hl⟩
    · obtain ⟨hmiss, hlast⟩ := not_or.mp hl
      have hnext : (opNextCol (scanStep s)).k.toNat = s.k.toNat + 1 := by
        rw [opNextCol_k, toNat_succ_of_ne_three _ hlast, scanStep_k]
      obtain ⟨hloop, m, hm, hmn, hreach⟩ :=
        ih (s := opNextCol (scanStep s)) h.scanStep (by omega)
      rw [scanLoop_advance (Bool.eq_false_iff.mpr hmiss) hlast]
      refine ⟨hloop, m + 1, by omega, by omega, ?_⟩
      rw [show 2 * (m + 1) = 2 + 2 * m by omega]
      exact (reaches_scanStep_advance h hl).followed hreach

/-- What HANDLER does after its sweep, with the channel of `c` (R155 to R157, R158). -/
def completion (c : Config) (s : State) : State :=
  returnFromHandler .normal (opIen .sequencer (chMask c)
    (opIclr .sequencer (chMask c) (opWrout .sequencer (outWord s.cfg s.res) s).settlePins))

/-- S_OUT, S_CLR and S_EN (R155 to R157). -/
theorem reaches_completion (h : s.RunsAlone c) :
    (s.goto .sOut).Reaches 3 (· = completion c s) := by
  obtain ⟨rfl, hr, hi, -⟩ := id h
  let d := opWrout .sequencer (outWord s.cfg s.res) s
  let e := opIclr .sequencer (chMask s.cfg) d.settlePins
  have written : (s.goto .sOut).Reaches 1 (· = d.goto .sClr) :=
    State.RunsAlone.reaches (s := s.goto .sOut) h rfl
  have cleared : (d.goto .sClr).Reaches 1 (· = e.goto .sEn) := .seq hr hi rfl rfl
  exact (written.followed cleared).followed (m := 1) (.seq hr hi rfl rfl)

end Pieces

/-- HANDLER up to its confirmation: IDIS and ISTAT (R158). -/
def confirmation (s : State) : State :=
  opIstat .sequencer (opIdis .sequencer (chMask s.cfg) s.settlePins)

section Handler

variable {s : State}

theorem handler_early (hc : confirmFlag s.cfg s.isr ≠ true) :
    handler s = returnFromHandler .early (confirmation s) :=
  if_neg hc

theorem handler_confirmed (hc : confirmFlag s.cfg s.isr = true) :
    handler s = completion s.cfg (scan (confirmation s)) :=
  if_pos hc

theorem runsAlone_confirmation (hr : s.rst = false) (hi : s.inputs = []) :
    (confirmation s).RunsAlone s.cfg :=
  ⟨rfl, hr, hi, rfl, rfl, rfl, rfl⟩

/-- S_DIS (R151). -/
theorem reaches_confirming (hr : s.rst = false) (hi : s.inputs = []) (hs : s.hs = .sDis) :
    s.Reaches 1 (· = (opIdis .sequencer (chMask s.cfg) s.settlePins).goto .sChk) :=
  .seq hr hi (by rw [hs]; rfl) rfl

end Handler

/-- Settles O52: S_DIS and S_CHK, then by the flag the early exit, or the sweep of one to four columns and
the three steps after it. -/
theorem invocationRefinesHandler : Obligations.InvocationRefinesHandler := by
  intro s hr hs hi
  have finish (n : Nat) (h : s.Reaches n (· = handler s)) :
      Host.Core.run Sys2Proof.core n s = .next (handler s) := by
    obtain ⟨t, hrun, rfl⟩ := h
    exact hrun
  have confirming := reaches_confirming hr hi hs
  by_cases hc : confirmFlag s.cfg s.isr = true
  · have halone := runsAlone_confirmation hr hi
    obtain ⟨hswept, m, hm, hm4, hsweep⟩ :=
      reaches_scanLoop (s := opColInit (confirmation s)) 4 halone rfl
    have begun : s.Reaches 2 (· = (opColInit (confirmation s)).goto .sCol) :=
      confirming.followed (m := 1) (.seq hr hi (exec_sChk_confirmed _ hc) rfl)
    have done := (begun.followed hsweep).followed (reaches_completion hswept)
    refine ⟨2 + 2 * m + 3, ?_, finish _ (handler_confirmed hc ▸ done)⟩
    interval_cases m <;> decide
  · refine ⟨2, by decide, finish 2 ?_⟩
    rw [handler_early hc]
    exact confirming.followed (m := 1) (.seq hr hi (exec_sChk_early _ hc) rfl)

end Sys2Proof.Machine
end

section
/-! SUPPORT. The step of each act of the host and of the environment (R180 to R195), and what a row sample and
the held keys answer (R183 to R185). -/

namespace Sys2Proof.Machine

section EnvironmentSteps

variable (s : State)

/-- A command presented while the sequencer runs is no transition (R195, log 9). -/
theorem step_hcmd_busy (w : CmdWord) (hr : s.rst = false) (hb : s.idle = false)
    (hi : s.nextAct = .hcmd w) : step s = .refused .hostWhileBusy := by
  refine step_of_stop _ _ ?_
  unfold nextTurn
  rw [hr, hi]
  exact if_neg (Bool.eq_false_iff.mp hb)

/-- An edge while `rst` is low is latched whatever `HS` is (R180). -/
theorem step_edge (m : Mask) (hr : s.rst = false) (hi : s.nextAct = .edge m) :
    step s = .next (envEdge m s.takeAct) := by
  refine step_of_settled _ _ ?_
  unfold nextTurn
  rw [hr, hi]
  rfl

/-- An INVOKE that finds the block idle and is not enabled is no transition (R181, log 10). -/
theorem step_invoke_notEnabled (hr : s.rst = false) (hi : s.nextAct = .invoke)
    (hb : s.idle = true) (he : s.invokeEnabled = false) :
    step s = .refused .invokeNotEnabled := by
  refine step_of_stop _ _ ?_
  unfold nextTurn
  rw [hr, hi]
  simp [turnRunning, State.busy, hb, he]

/-- The sink pins are sampled whatever the level of `rst` (R193, log 13). -/
theorem step_hRdout (hi : s.nextAct = .hRdout) : step s = .next (envRdout s.takeAct) := by
  refine step_of_settled _ _ ?_
  unfold nextTurn
  rw [hi]
  exact ite_self _

/-- A key event writes its position whatever the level of `rst` (R185, log 13). -/
theorem step_keyEvent (r c : Line) (down : Bool) (hk : s.cfg.rowsEnv = .keypad)
    (hi : s.nextAct = if down then .keyDown r c else .keyUp r c) :
    step s = .next { s.takeAct with
      held := setKey s.held r c down
      trace := s.trace ++ [if down then .keyDown r c else .keyUp r c] } := by
  refine step_of_settled _ _ ?_
  unfold nextTurn
  cases down <;> rw [hi] <;> exact (ite_self _).trans (if_pos hk)

/-- A key event without the keypad is no transition (R185, log 10). -/
theorem step_keyEvent_free (r c : Line) (down : Bool) (hk : s.cfg.rowsEnv = .free)
    (hi : s.nextAct = if down then .keyDown r c else .keyUp r c) :
    step s = .refused .keyEventWithoutKeypad := by
  have hne : s.takeAct.cfg.rowsEnv ≠ .keypad := by simp [hk]
  refine step_of_stop _ _ ?_
  unfold nextTurn
  cases down <;> rw [hi] <;> exact (ite_self _).trans (if_neg hne)

/-- INVOKE is enabled when the block is idle and, unless the policy is `FREE`, the request is up (R181). -/
theorem invokeEnabled_iff :
    s.invokeEnabled = true ↔
      s.hs = .sIdle ∧ (s.cfg.invokePolicy = .free ∨ (s.ie = true ∧ s.is = true)) := by
  cases hp : s.cfg.invokePolicy <;> simp [State.invokeEnabled, State.irq, hp, idle_iff]

end EnvironmentSteps

section RowPins

variable (s : State)

/-- Taking the act off the list commutes with using up a row sample (R183). -/
theorem consumeRow_takeAct : consumeRow s.takeAct = (consumeRow s).takeAct := by
  unfold consumeRow
  rw [State.takeAct_cfg, State.takeAct_rows]
  split
  · rfl
  · split <;> rfl

/-- A row line is pulled low by a held key in a driven column (R184). -/
theorem rowLow_iff (held : Vector Bool 16) (col : Nibble) (r : Line) :
    rowLow held col r = true ↔
      ∃ c : Line, keyHeld held r c = true ∧ col.getLsbD c.val = false := by
  simp [rowLow, Fin.exists_fin_succ, or_assoc]

/-- A row pin of the nominal keypad reads 0 when its row line is pulled low (R184). -/
theorem getLsbD_rowSample_keypad (he : s.cfg.rowsEnv = .keypad) (r : Line) :
    (rowSample s).getLsbD r.val = !rowLow s.held s.col r := by
  rw [rowSample_keypad s he, getLsbD_keypadRows]

/-- Two row readings with the same four bits are equal. -/
theorem eq_of_getLsbD_line {x y : Nibble} (h : ∀ r : Line, x.getLsbD r.val = y.getLsbD r.val) :
    x = y :=
  BitVec.eq_of_getLsbD_eq fun i hi => h ⟨i, hi⟩

/-- In the reading `1111` every row line is high (R184). -/
theorem getLsbD_allHigh (r : Line) : (0b1111#4).getLsbD r.val = true := by
  revert r
  decide

/-- With no key held no row line is pulled low. -/
theorem rowLow_none (held : Vector Bool 16) (col : Nibble) (r : Line)
    (h : ∀ c : Line, keyHeld held r c = false) : rowLow held col r = false := by
  simp [rowLow, h]

/-- With one key held only its row line is pulled low, and only while its column is driven low (R184). -/
theorem rowLow_onlyKeyHeld {r c : Line} (h : s.OnlyKeyHeld r c) (r' : Line) :
    rowLow s.held s.col r' = (decide (r' = r) && !s.col.getLsbD c.val) := by
  rw [Bool.eq_iff_iff, rowLow_iff]
  simp [h]

end RowPins

section HeldKeys

/-- Each position of the matrix has a place of its own among the held keys (R184). -/
theorem keyIndex_eq_iff (r c r' c' : Line) :
    keyIndex r' c' = keyIndex r c ↔ r' = r ∧ c' = c := by
  simp only [keyIndex, Fin.ext_iff]
  omega

/-- A key event decides its own position and leaves the others (R185). -/
theorem keyHeld_setKey (held : Vector Bool 16) (r c r' c' : Line) (b : Bool) :
    keyHeld (setKey held r c b) r' c' = if r' = r ∧ c' = c then b else keyHeld held r' c' := by
  have hplace : (keyIndex r c).val = (keyIndex r' c').val ↔ r' = r ∧ c' = c := by
    rw [Fin.val_inj, eq_comm, keyIndex_eq_iff]
  simp only [keyHeld, setKey, Fin.getElem_fin, Vector.getElem_set, hplace]

end HeldKeys

end Sys2Proof.Machine
end

section
/-! PROOFS. The host's commands (R186 to R192, R195), the row pins (R183, R184) and the acts of the environment
(R180, R181, R185, R193). -/

namespace Sys2Proof.Machine

/-- Settles O14: an idle block runs the operation of the word for the host; a busy one refuses the act. -/
theorem hostCommandsActWhenIdle : Obligations.HostCommandsActWhenIdle := by
  intro s w rest hr hl a m u
  have hi := s.nextAct_cons _ rest hl
  have hu : s.takeAct = u := s.takeAct_cons _ rest hl
  refine ⟨fun hs => step_hcmd_busy s w hr (by simp [State.idle, hs]) hi, fun hs => ?idle⟩
  have hidle : s.idle = true := (idle_iff s).mpr hs
  have hhost : s.takeAct.issuer = .host := if_pos hidle
  rw [step_hcmd s w hr hidle hi]
  refine ⟨fun h => ?wrcol, fun h => ?rdcmb, fun h => ?wrout, fun h => ?istat, fun h => ?idis,
    fun h => ?iclr, fun h => ?ien⟩
  case wrcol => rw [decodeCmd_wrcol h, exec_wrcol, hhost, opWrcol_eq, hu]
  case rdcmb => rw [decodeCmd_rdcmb h, exec_rdcmb, hhost, opRdcmb_eq, consumeRow_takeAct, hu]; rfl
  case wrout => rw [decodeCmd_wrout h, exec_wrout, hhost, opWrout_eq, hu]
  case istat => rw [decodeCmd_istat h, exec_istat, hhost, opIstat_eq, hu]; rfl
  case idis => rw [decodeCmd_idis h, exec_idis, hhost, opIdis_eq, hu]; rfl
  case iclr => rw [decodeCmd_iclr h, exec_iclr, hhost, opIclr_eq, hu]; rfl
  case ien => rw [decodeCmd_ien h, exec_ien, hhost, opIen_eq, hu]; rfl

/-- Settles O29: the bits of the sample by `rowLow`, which says which row lines are pulled low. -/
theorem nominalKeypadRows : Obligations.NominalKeypadRows := by
  intro s he
  have hbit := getLsbD_rowSample_keypad s he
  refine ⟨fun r => ?bit, consumeRow_keypad s he, fun hnone => ?none, fun r c honly => ?only⟩
  case bit => rw [hbit, Bool.not_eq_false', rowLow_iff]
  case none =>
    refine eq_of_getLsbD_line fun r => ?_
    rw [hbit, rowLow_none s.held s.col r (hnone r), getLsbD_allHigh, Bool.not_false]
  case only =>
    refine eq_of_getLsbD_line fun r' => ?_
    rw [hbit, rowLow_onlyKeyHeld s honly]
    split
    next hlow => rw [hlow, getLsbD_colPattern, Bool.not_false, Bool.and_true]
    next hhigh =>
      rw [Bool.not_eq_false] at hhigh
      rw [hhigh, getLsbD_allHigh, Bool.not_true, Bool.and_false, Bool.not_false]

/-- Settles O33: the event writes one position, and positions have places of their own. -/
theorem keyEventsChangeOnlyTheKeys : Obligations.KeyEventsChangeOnlyTheKeys := by
  intro s r c down rest hl
  have hi := s.nextAct_cons _ rest hl
  refine ⟨fun hk => ⟨_, step_keyEvent s r c down hk hi, fun r' c' => ?_, ?_⟩,
    fun hk => step_keyEvent_free s r c down hk hi⟩
  · exact keyHeld_setKey s.held r c r' c' down
  · rw [s.takeAct_cons _ rest hl]

/-- Settles O30: the equations of a read with a sample listed. -/
theorem rowOracleGivesOneElementPerRead : Obligations.RowOracleGivesOneElementPerRead :=
  fun s r rest he hl => ⟨rowSample_free_cons s r rest he hl, consumeRow_free_cons s r rest he hl⟩

/-- Settles O31: the mask has no bit that the pins lack and is not zero, so the edge is an event. -/
theorem edgeLatchesStatus : Obligations.EdgeLatchesStatus := by
  intro s m rest hr hl hwidth hne
  have hmask : maskArg s.takeAct.cfg m = m := hwidth
  rw [step_edge s m hr (s.nextAct_cons _ rest hl)]
  obtain ⟨hzero, -⟩ | ⟨-, hedge⟩ := envEdge_cases s.takeAct m
  · exact absurd (hmask.symm.trans hzero) hne
  · rw [hedge, hmask, s.takeAct_cons _ rest hl]
    rfl

/-- Settles O32: an idle block by whether INVOKE is enabled; a busy one takes no notice. -/
theorem invokeEntersTheHandler : Obligations.InvokeEntersTheHandler := by
  intro s rest hr hl
  have hi := s.nextAct_cons _ rest hl
  have htake := s.takeAct_cons _ rest hl
  refine ⟨fun hs hen => ?taken, fun hs hpol hreq => ?refused, fun hs => ?busy⟩
  case taken =>
    rw [step_invoke_taken s hr hi ((invokeEnabled_iff s).mpr ⟨hs, hen⟩), takeInvoke_eq, htake]
    rfl
  case refused =>
    have hoff : ¬s.invokeEnabled = true := by simp [invokeEnabled_iff, hpol, hreq]
    exact step_invoke_notEnabled s hr hi ((idle_iff s).mpr hs) (Bool.eq_false_iff.mpr hoff)
  case busy => rw [step_invoke_busy s hr hi (busy_of_hs_ne s hs), htake]

/-- Settles O34: the value is `outRead`, and a free value is used while `OUTV` is 0 alone. -/
theorem hostReadsOutputAnyTime : Obligations.HostReadsOutputAnyTime := by
  intro s rest hl
  refine ⟨outRead s, fun hv => if_pos hv, ?_⟩
  rw [step_hRdout s (s.nextAct_cons _ rest hl)]
  cases hv : s.outv with
  | true =>
    rw [envRdout_written s.takeAct hv, s.takeAct_cons _ rest hl, outRead, if_pos hv]
    rfl
  | false =>
    rw [envRdout_unwritten s.takeAct hv, s.takeAct_cons _ rest hl, outRead, if_neg (by simp [hv])]
    rfl

end Sys2Proof.Machine
end

section
/-! PROOFS. Who writes which bits of `ISR` and `IER` (R24, R205, R206): the sequencer bit `CH` alone,
and bit `CH` of `ISR` falls in S_CLR, by the host's ICLR or at reset. -/

namespace Sys2Proof.Machine

section MaskBits

variable {x m : Mask} {i : Nat}

/-- Every bit of `CH_MASK` but `CH` is 0 (R9, R84). -/
theorem getLsbD_chMask_of_ne (c : Config) (h : i ≠ c.ch) : (chMask c).getLsbD i = false := by
  by_cases hi : i < 8
  · rw [getLsbD_chMask c i hi, decide_eq_false h]
  · exact BitVec.getLsbD_of_ge _ _ (Nat.le_of_not_lt hi)

/-- Clearing the bits of a mask keeps the others. -/
theorem getLsbD_and_not_of_not_getLsbD (x : Mask) (h : m.getLsbD i = false) :
    (x &&& ~~~m).getLsbD i = x.getLsbD i := by
  by_cases hi : i < 8
  · rw [BitVec.getLsbD_and, BitVec.getLsbD_not, h]
    simp [hi]
  · simp [BitVec.getLsbD_of_ge x i (Nat.le_of_not_lt hi)]

/-- Setting the bits of a mask keeps the others. -/
theorem getLsbD_or_of_not_getLsbD (x : Mask) (h : m.getLsbD i = false) :
    (x ||| m).getLsbD i = x.getLsbD i := by
  rw [BitVec.getLsbD_or, h, Bool.or_false]

/-- A bit that falls when the bits of a mask are cleared is one of the mask's. -/
theorem getLsbD_of_and_not_falls (hx : x.getLsbD i = true)
    (hfall : (x &&& ~~~m).getLsbD i = false) : m.getLsbD i = true := by
  by_contra hm
  rw [getLsbD_and_not_of_not_getLsbD x (Bool.not_eq_true _ ▸ hm), hx] at hfall
  cases hfall

/-- The mask operand has no bit that the argument lacks (R80). -/
theorem getLsbD_of_maskArg (c : Config) (h : (maskArg c x).getLsbD i = true) :
    x.getLsbD i = true := by
  rw [maskArg, BitVec.getLsbD_and] at h
  exact (Bool.and_eq_true_iff.mp h).1

end MaskBits

section WhoWrites

variable {s t : State} {h : HState}

/-- The sequencer's turn is next only when its act is (R198). -/
theorem nextAct_of_sequencerNext (hseq : s.sequencerNext) : s.nextAct = .seq := by
  obtain ⟨-, hnil | ⟨rest, hcons⟩⟩ := hseq
  · exact s.nextAct_nil hnil
  · exact s.nextAct_cons _ rest hcons

/-- Of the sequencer's steps S_CLR alone touches `ISR` (R156). -/
theorem SeqCase.isr (hcase : SeqCase s h t) :
    t.isr = s.isr ∨ h = .sClr ∧ t.isr = s.isr &&& ~~~chMask s.cfg := by
  cases hcase with
  | cleared => exact .inr ⟨rfl, rfl⟩
  | waits | invoked | disabled | confirmed | early | driven | ended | advanced | written
  | enabled =>
    exact .inl rfl

/-- Of the commands ICLR alone touches `ISR` (R100 to R106). -/
theorem exec_decodeCmd_isr {w : CmdWord} (he : exec (decodeCmd w) s = .next t) :
    t.isr = s.isr
      ∨ CmdWord.op w = 5#3 ∧ t.isr = s.isr &&& ~~~maskArg s.cfg (CmdWord.arg w) := by
  revert he
  refine decodeCmd_word_elim (motive := fun w i => exec i s = .next t → t.isr = s.isr
      ∨ CmdWord.op w = 5#3 ∧ t.isr = s.isr &&& ~~~maskArg s.cfg (CmdWord.arg w))
    ?wrcol ?rdcmb ?wrout ?istat ?idis ?iclr ?ien ?reservedOp7 w
  case reservedOp7 => nofun
  case iclr =>
    rintro a ⟨⟩
    rw [CmdWord.op_mk, CmdWord.arg_mk]
    exact .inr ⟨rfl, rfl⟩
  case rdcmb =>
    rintro - ⟨⟩
    rw [opRdcmb_eq]
    exact .inl rfl
  case istat =>
    rintro - ⟨⟩
    rw [opIstat_eq]
    exact .inl rfl
  case wrcol | wrout | idis | ien =>
    rintro a ⟨⟩
    exact .inl rfl

end WhoWrites

/-- Settles O46: of the cases of a step, the sequencer's is `SeqCase.isr`, the host's is
`exec_decodeCmd_isr`, an edge sets bits only, and reset apart the other acts leave `ISR` alone. -/
theorem statusBitClearedOnlyByClear : Obligations.StatusBitClearedOnlyByClear := by
  intro s t _ hstep hup hdown
  rw [State.is, configIsNeverWritten s t hstep] at hdown
  have hkept : t.isr ≠ s.isr := by
    intro h
    rw [h] at hdown
    exact Bool.false_ne_true (hdown.symm.trans hup)
  cases step_case s t hstep with
  | seq _ hr hi he =>
    obtain ⟨hclr, -⟩ := (seqCase_of_exec he).isr.resolve_left hkept
    exact .inl ⟨hclr, sequencerNext_of_nextAct s hr hi⟩
  | host w _ hr hi hb he =>
    obtain ⟨hop, hisr⟩ := (exec_decodeCmd_isr he).resolve_left hkept
    rw [hisr] at hdown
    exact .inr (.inl ⟨w, _, inputs_of_nextAct hi nofun, hr, (idle_iff s).mp hb, hop,
      getLsbD_of_maskArg s.cfg (getLsbD_of_and_not_falls hup hdown)⟩)
  | rstHigh hi => exact .inr (.inr ⟨_, inputs_of_nextAct hi nofun⟩)
  | edge m =>
    obtain ⟨-, h⟩ | ⟨-, h⟩ := envEdge_cases s.takeAct m <;> rw [h] at hkept hdown
    · exact absurd rfl hkept
    · have his : s.isr.getLsbD s.cfg.ch = true := hup
      simp [his] at hdown
  | rom a _ _ he =>
    rw [exec_decodeRom] at he
    cases he
    exact absurd rfl hkept
  | hRdout =>
    rw [envRdout_eq] at hkept
    exact absurd rfl hkept
  | still | invokeBusy | invoke | rstLow | keyDown | keyUp => exact absurd rfl hkept

/-- Settles O47: the sequencer writes both masks with `CH_MASK`, which has no other bit. -/
theorem otherChannelsUntouchedInHandler : Obligations.OtherChannelsUntouchedInHandler := by
  intro s t i _ hseq hstep hne
  rw [step_seq s hseq.1 (nextAct_of_sequencerNext hseq)] at hstep
  have hbit : (chMask s.cfg).getLsbD i = false := getLsbD_chMask_of_ne s.cfg hne
  constructor
  · obtain h | ⟨-, h⟩ | ⟨-, h⟩ := exec_stateInstr_ier _ t s.hs hstep <;> rw [h]
    · rfl
    · exact getLsbD_and_not_of_not_getLsbD s.ier hbit
    · exact getLsbD_or_of_not_getLsbD s.ier hbit
  · obtain h | ⟨-, h⟩ := (seqCase_of_exec hstep).isr <;> rw [h]
    · rfl
    · exact getLsbD_and_not_of_not_getLsbD s.isr hbit

end Sys2Proof.Machine
end

section
/-! SUPPORT. The steps that sample `rst` (R240), the acts that `rst` held high shuts out (R241), and a run of
one step. -/

namespace Sys2Proof.Machine

/-- A step that completes is a run of one step. -/
theorem State.Reaches.of_step {s t : State} {Q : State → Prop} (h : step s = .next t) (hq : Q t) :
    s.Reaches 1 Q :=
  ⟨t, run_next s 0 t h, hq⟩

section ResetPin

variable (s : State)

/-- A high sample of `rst` resets the block whatever the level before (R240). -/
theorem step_rstHigh (hi : s.nextAct = .rst true) : step s = .next (envReset s.takeAct) := by
  refine step_of_settled _ _ ?_
  unfold nextTurn
  rw [hi]
  exact ite_self _

/-- A low sample of `rst` takes the level down and nothing else (R241). -/
theorem step_rstLow (hi : s.nextAct = .rst false) :
    step s = .next { s.takeAct with rst := false } := by
  refine step_of_settled _ _ ?_
  unfold nextTurn
  rw [hi]
  exact ite_self _

/-- The acts that "have no effect and are not events" while `rst` is high (R241). -/
def Input.ShutOutByReset (i : Input) : Prop :=
  i = .seq ∨ i = .invoke ∨ (∃ m, i = .edge m) ∨ ∃ w, i = .hcmd w

/-- Such an act is only taken off the list. -/
theorem step_shutOut (hr : s.rst = true) (hi : s.nextAct.ShutOutByReset) :
    step s = .next s.takeAct := by
  refine step_of_settled _ _ ?_
  unfold nextTurn
  rw [hr]
  obtain h | h | ⟨m, h⟩ | ⟨w, h⟩ := hi <;> rw [h] <;> rfl

end ResetPin

end Sys2Proof.Machine
end

section
/-! PROOFS. Reset (R240 to R243) and the pins after it (R40, R242). -/

namespace Sys2Proof.Machine

/-- Settles O35: the step is `envReset`, which takes every register from `State.reset`. -/
theorem resetFromAnyState : Obligations.ResetFromAnyState := by
  intro s rest hl
  refine ⟨_, step_rstHigh s (s.nextAct_cons _ rest hl), ?_⟩
  rw [s.takeAct_cons _ rest hl]
  exact ⟨rfl, rfl, rfl, rfl, rfl, rfl, rfl, rfl, rfl, rfl, rfl, rfl, rfl, rfl, rfl⟩

/-- Settles O36: the acts that `rst` shuts out by `step_shutOut`, the samples of `rst` by their own steps. -/
theorem resetHeldIgnoresInputs : Obligations.ResetHeldIgnoresInputs := by
  refine fun s hr => ⟨fun hl => ?unlisted, fun i rest hl hout => ?shutOut,
    fun rest hl => ?high, fun rest hl => ?low⟩
  case unlisted => rw [step_shutOut s hr (.inl (s.nextAct_nil hl)), s.takeAct_nil hl]
  case shutOut =>
    have hi : s.nextAct.ShutOutByReset := by
      rw [s.nextAct_cons i rest hl]
      exact hout
    rw [step_shutOut s hr hi, s.takeAct_cons i rest hl]
  case high =>
    exact ⟨_, step_rstHigh s (s.nextAct_cons _ rest hl),
      rfl, rfl, rfl, rfl, rfl, rfl, rfl, rfl, rfl, rfl⟩
  case low => rw [step_rstLow s (s.nextAct_cons _ rest hl), s.takeAct_cons _ rest hl]

/-- Settles O38: the pins and the predicate read `State.reset`. -/
theorem pinsAfterReset : Obligations.PinsAfterReset :=
  ⟨rfl, rfl, rfl, rfl, rfl, rfl⟩

end Sys2Proof.Machine
end

section
/-! PROOFS. The boot duties (R244): the host's WRCOL, WROUT, ICLR and IEN one after another. -/

namespace Sys2Proof.Machine

/-- Setting the keypad's channel sets bit `CH` (R9, R84). -/
theorem getLsbD_or_chMask (c : Config) (x : Mask) (hwf : c.wf = true) :
    (x ||| chMask c).getLsbD c.ch = true := by
  rw [BitVec.getLsbD_or, getLsbD_chMask_ch c hwf, Bool.or_true]

/-- Enabling the keypad's channel in an idle block arms it (R24, R33). -/
theorem armed_of_enabled {s : State} {x : Mask} (hs : s.hs = .sIdle) (hwf : s.cfg.wf = true)
    (hier : s.ier = x ||| chMask s.cfg) : s.armed = true := by
  have hie : s.ie = true := by
    rw [State.ie, hier]
    exact getLsbD_or_chMask s.cfg x hwf
  rw [State.armed, (idle_iff s).mpr hs, hie, Bool.and_true]

/-- Clearing the keypad's channel leaves its flag down (R25). -/
theorem is_of_cleared {s : State} {x : Mask} (hwf : s.cfg.wf = true)
    (hisr : s.isr = x &&& ~~~chMask s.cfg) : s.is = false := by
  rw [State.is, hisr]
  exact getLsbD_and_not_of_getLsbD x (getLsbD_chMask_ch s.cfg hwf)

section HostCommand

variable {s : State} {rest : List Input}

/-- A command of the host to an idle block is one step (R108, R186 to R192). -/
theorem reaches_hostCommand {c : CmdWord} {t : State} (hr : s.rst = false) (hs : s.hs = .sIdle)
    (hl : s.inputs = .hcmd c :: rest)
    (he : exec (decodeCmd c) { s.settlePins with inputs := rest } = .next t) :
    s.Reaches 1 (· = t) := by
  refine .of_step ?_ rfl
  rw [step_hcmd s c hr ((idle_iff s).mpr hs) (s.nextAct_cons _ rest hl),
    s.takeAct_cons _ rest hl, he]

/-- The host owns the port of an idle block (R108). -/
theorem issuer_of_hs_sIdle (hs : s.hs = .sIdle) : s.issuer = .host :=
  if_pos ((idle_iff s).mpr hs)

theorem exec_hostWrcol (p : Nibble) (hs : s.hs = .sIdle) :
    exec (decodeCmd (CmdWord.mk 0#3 (p.setWidth 8))) s = .next (opWrcol .host p s) := by
  simp [exec_wrcol, issuer_of_hs_sIdle hs]

theorem exec_hostWrout (w : OutWord) (hs : s.hs = .sIdle) :
    exec (decodeCmd (CmdWord.mk 2#3 (w.setWidth 8))) s = .next (opWrout .host w s) := by
  simp [exec_wrout, issuer_of_hs_sIdle hs]

theorem exec_hostIclr {c : Config} (hwf : c.wf = true) (hc : s.cfg = c) (hs : s.hs = .sIdle) :
    exec (decodeCmd (CmdWord.mk 5#3 (chMask c))) s = .next (opIclr .host (chMask c) s) := by
  simp [exec_iclr, issuer_of_hs_sIdle hs, hc, maskArg_chMask c hwf]

theorem exec_hostIen {c : Config} (hwf : c.wf = true) (hc : s.cfg = c) (hs : s.hs = .sIdle) :
    exec (decodeCmd (CmdWord.mk 6#3 (chMask c))) s = .next (opIen .host (chMask c) s) := by
  simp [exec_ien, issuer_of_hs_sIdle hs, hc, maskArg_chMask c hwf]

/-- The four commands with the exact state they leave (R244). -/
theorem reaches_booted (p : Nibble) (w : OutWord) (hwf : s.cfg.wf = true) (hr : s.rst = false)
    (hs : s.hs = .sIdle) (hl : s.inputs = bootDuties s.cfg p w ++ rest) :
    s.Reaches 4 (· = { s.settlePins with
      col := p, out := w, outv := true
      isr := s.isr &&& ~~~chMask s.cfg, ier := s.ier ||| chMask s.cfg, inputs := rest
      trace := s.trace ++ [.op .host (.wrcol p)] ++ [.op .host (.wrout w)]
        ++ [.op .host (.iclr (chMask s.cfg))] ++ [.op .host (.ien (chMask s.cfg))] }) := by
  have columns := reaches_hostCommand hr hs hl (exec_hostWrcol p hs)
  have output := columns.followed (reaches_hostCommand hr hs rfl (exec_hostWrout w hs))
  have cleared := output.followed (reaches_hostCommand hr hs rfl (exec_hostIclr hwf rfl hs))
  exact cleared.followed (reaches_hostCommand hr hs rfl (exec_hostIen hwf rfl hs))

end HostCommand

/-- Settles O39: `reaches_booted`, whose state has bit `CH` of `IER` up and that of `ISR` down. -/
theorem bootDutiesArmTheBlock : Obligations.BootDutiesArmTheBlock := by
  intro s p w rest hwf hr hs hl
  obtain ⟨t, hrun, ht⟩ := reaches_booted p w hwf hr hs hl
  have his : t.is = false := is_of_cleared (x := s.isr) (by rw [ht]; exact hwf) (by rw [ht]; rfl)
  have harmed : t.armed = true :=
    armed_of_enabled (x := s.ier) (by rw [ht]; exact hs) (by rw [ht]; exact hwf) (by rw [ht]; rfl)
  have hirq : t.irq = false := by rw [State.irq, his, Bool.and_false]
  refine ⟨t, hrun, harmed, his, hirq, ?_⟩
  rw [ht]
  exact ⟨rfl, rfl, rfl, rfl, rfl, rfl, rfl, rfl, rfl⟩

end Sys2Proof.Machine
end

section
/-! PROOFS. An edge between the clear and the enable (R254): it is pending at the return, and the INVOKE that
follows serves it by a whole HANDLER (R155 to R158). -/

namespace Sys2Proof.Machine

/-- SCAN only appends to the trace (R35, R129). -/
theorem scanLoop_trace_prefix (n : Nat) (s : State) : s.trace <+: (scanLoop n s).trace := by
  induction n generalizing s with
  | zero => exact List.prefix_rfl
  | succ n ih =>
    have tried : s.trace <+: (scanStep s).trace := by
      rw [scanStep_eq, List.append_assoc]
      exact List.prefix_append _ _
    by_cases hl : hitFlag (scanStep s).res = true ∨ (scanStep s).k = 3#2
    · rwa [scanLoop_last hl]
    · obtain ⟨hmiss, hlast⟩ := not_or.mp hl
      rw [scanLoop_advance (Bool.eq_false_iff.mpr hmiss) hlast]
      exact tried.trans (ih (opNextCol (scanStep s)))

/-- The trace goes on from `es`, the flag is down, the output is written and the block is Armed. -/
def State.Served (es : List Event) (t : State) : Prop :=
  es <+: t.trace ∧ t.is = false ∧ t.outv = true ∧ t.armed = true

/-- S_OUT, S_CLR and S_EN serve the keypad whatever the sweep left (R155 to R157). -/
theorem completion_served {s : State} {es : List Event} (hwf : s.cfg.wf = true)
    (htrace : es <+: s.trace) : (completion s.cfg s).Served es := by
  refine ⟨?trace, is_of_cleared (x := s.isr) hwf rfl, rfl,
    armed_of_enabled (x := s.ier) rfl hwf rfl⟩
  case trace =>
    change es <+: s.trace ++ [_] ++ [_] ++ [_] ++ [_]
    simp only [List.append_assoc]
    exact htrace.trans (List.prefix_append _ _)

section Service

variable {s : State}

/-- HANDLER with the flag up goes through its sweep to the normal return (R158). -/
theorem State.BeginsService.handler_served (hb : s.BeginsService) :
    (handler s).Served s.trace := by
  obtain ⟨hwf, hr, -, his, hi⟩ := hb
  have hflag : confirmFlag s.cfg s.isr = true := (confirmFlag_eq_of_wf s.cfg s.isr hwf).trans his
  have halone := runsAlone_confirmation hr hi
  obtain ⟨⟨hcfg, -⟩, -⟩ := reaches_scanLoop (s := opColInit (confirmation s)) 4 halone rfl
  change (scan (confirmation s)).cfg = s.cfg at hcfg
  have htrace : s.trace <+: (scan (confirmation s)).trace := by
    refine List.IsPrefix.trans ?_ (scanLoop_trace_prefix 4 (opColInit (confirmation s)))
    change s.trace <+: s.trace ++ [_] ++ [_]
    rw [List.append_assoc]
    exact List.prefix_append _ _
  rw [handler_confirmed hflag, ← hcfg]
  exact completion_served (hcfg ▸ hwf) htrace

/-- The invocation takes two steps and two for each column to the output, and three from there: with the
flag up, two steps lead to the sweep and not to the early exit (R152, R164). -/
theorem State.BeginsService.reaches_served (hb : s.BeginsService) :
    ∃ n ∈ [7, 9, 11, 13], s.Reaches n (State.Served s.trace) := by
  obtain ⟨n, hn, hrun⟩ := invocationRefinesHandler s hb.rst hb.hs hb.inputs
  have hne : n ≠ 2 := by
    rintro rfl
    obtain ⟨t, hrun', hsweep⟩ := reaches_sweep hb
    obtain rfl := Host.Outcome.next.inj (hrun'.symm.trans hrun)
    obtain ⟨-, -, -, harmed⟩ := hb.handler_served
    simp [State.armed, State.idle, hsweep.hs] at harmed
  exact ⟨n, List.mem_of_ne_of_mem hne hn, _, hrun, hb.handler_served⟩

/-- An edge on the keypad's own channel is latched and recorded (R180). -/
theorem envEdge_chMask (hwf : s.cfg.wf = true) :
    envEdge (chMask s.cfg) s
      = { s with
          isr := s.isr ||| chMask s.cfg, trace := s.trace ++ [.edge (chMask s.cfg)] } := by
  have hmask := maskArg_chMask s.cfg hwf
  obtain ⟨hzero, -⟩ | ⟨-, h⟩ := envEdge_cases s (chMask s.cfg)
  · have hbit := getLsbD_chMask_ch s.cfg hwf
    rw [← hmask, hzero, BitVec.getLsbD_zero] at hbit
    cases hbit
  · rw [h, hmask]

/-- The edge and then S_EN, with the exact state they leave (R157, R180, R254). -/
theorem reaches_returned_pending {rest : List Input} (hwf : s.cfg.wf = true) (hr : s.rst = false)
    (hs : s.hs = .sEn) (hl : s.inputs = .edge (chMask s.cfg) :: .seq :: rest) :
    s.Reaches 2 (· = { s.settlePins with
      isr := s.isr ||| chMask s.cfg, ier := s.ier ||| chMask s.cfg, hs := .sIdle, ret := true
      inputs := rest
      trace := s.trace ++ [.edge (chMask s.cfg), .op .sequencer (.ien (chMask s.cfg)),
        .ret .normal] }) := by
  let u : State := { s.settlePins with
    isr := s.isr ||| chMask s.cfg, inputs := .seq :: rest
    trace := s.trace ++ [.edge (chMask s.cfg)] }
  have latched : s.Reaches 1 (· = u) := by
    refine .of_step (step_edge s _ hr (s.nextAct_cons _ _ hl)) ?_
    rw [s.takeAct_cons _ _ hl]
    exact envEdge_chMask (s := { s.settlePins with inputs := .seq :: rest }) hwf
  have hstep : step u = exec .sEn u.takeAct := by
    rw [step_seq u hr rfl, show u.hs = .sEn from hs]
    rfl
  refine latched.followed (m := 1) (.of_step (hstep.trans (exec_sEn_eq u.takeAct)) ?_)
  rw [State.takeAct_trace, List.append_assoc]
  rfl

end Service

/-- Settles O49: the state after the return has bit `CH` of both masks up, so the INVOKE is enabled under
either policy and begins an invocation that confirms. -/
theorem edgeBeforeEnableIsServedLater : Obligations.EdgeBeforeEnableIsServedLater := by
  intro s rest hwf hr hs hl served
  obtain ⟨t, hrun, ht⟩ := reaches_returned_pending hwf hr hs hl
  have hie : t.ie = true := by
    rw [ht]
    exact getLsbD_or_chMask s.cfg s.ier hwf
  have his : t.is = true := by
    rw [ht]
    exact getLsbD_or_chMask s.cfg s.isr hwf
  have hidle : t.hs = .sIdle := by rw [ht]
  have henabled : t.invokeEnabled = true :=
    (invokeEnabled_iff t).mpr ⟨hidle, .inr ⟨hie, his⟩⟩
  have htrace : t.trace = served := by rw [ht]
  have hinputs : t.inputs = rest := by rw [ht]
  refine ⟨⟨t, hrun, hidle, ?irq, henabled, htrace, hinputs⟩, fun hrest => ?served⟩
  case irq => rw [State.irq, hie, his, Bool.and_true]
  case served =>
    have hrst : t.rst = false := by rw [ht]; exact hr
    have hcfg : t.cfg.wf = true := by rw [ht]; exact hwf
    have hinvoke : t.inputs = [.invoke] := hinputs.trans hrest
    have invoked : t.Reaches 1 (· = takeInvoke t.takeAct) :=
      .of_step (step_invoke_taken t hrst (t.nextAct_cons _ _ hinvoke) henabled) rfl
    have begins : (takeInvoke t.takeAct).BeginsService :=
      ⟨hcfg, hrst, rfl, his, congrArg List.tail hinvoke⟩
    obtain ⟨n, hn, service⟩ := begins.reaches_served
    have returned : s.Reaches 2 (· = t) := ⟨t, hrun, rfl⟩
    obtain ⟨u, hall, hu⟩ := returned.followed (invoked.followed service)
    rw [takeInvoke_trace, State.takeAct_trace, htrace] at hu
    refine ⟨2 + (1 + n), ?_, u, hall, hu⟩
    simp only [List.mem_cons, List.not_mem_nil, or_false] at hn ⊢
    omega

end Sys2Proof.Machine
end
